-- ==== Sys2Proof/Word.lean ====
section
/-! DEFINITION. The words of the codec and the fixed constants of rule R1 (spec/00_scope.md). -/

namespace Sys2Proof

/-- A byte: an 8-bit unsigned value (R4). -/
abbrev Byte := BitVec 8

/-- A sequence number: 64 bits, opaque to the codec (R11). -/
abbrev Seq := BitVec 64

/-- `HDR_LEN`: the bytes of the fixed header (R1). -/
abbrev hdrLen : Nat := 13

/-- `LEN_FIELD_BYTES`: the bytes of the total_len field (R1). -/
abbrev lenFieldBytes : Nat := 4

/-- `TAG_BYTES`: the bytes of the type field (R1). -/
abbrev tagBytes : Nat := 1

/-- `SEQ_BYTES`: the bytes of the sequence field (R1). -/
abbrev seqBytes : Nat := 8

/-- `MAX_TOTAL_LEN` = 2^32 − 1 (R1). -/
abbrev maxTotalLen : Nat := 4294967295

/-- `MAX_PAYLOAD_LEN` = 2^32 − 14 (R1; conflict C1 of spec/90_conflicts.md settles the value). -/
abbrev maxPayloadLen : Nat := 4294967282

end Sys2Proof
end

