-- ==== Sys2Proof/Syntax.lean ====
section
/-! DEFINITION. The instructions: one constructor per row of spec/opcode_table.json, with the operands the row gives. -/

namespace Sys2Proof

/-- What the block gives a meaning to. The first five rows are the command words (R61 to R63) with the request fields
they carry; the last five are the wire words, which DECODE reads in a received buffer (R54, R57, R58; log 7). -/
inductive Instr where
  /-- `ENCODE.DATA`: CMD 000, with SEQ and PLEN (R63, R68). -/
  | encodeData (seq : BitVec 64) (plen : Nat)
  /-- `ENCODE.ACK`: CMD 010, with SEQ and PLEN (R63, R68). -/
  | encodeAck (seq : BitVec 64) (plen : Nat)
  /-- `ENCODE.SYN`: CMD 100, with SEQ and PLEN (R63, R68). -/
  | encodeSyn (seq : BitVec 64) (plen : Nat)
  /-- `DECODE`: CMD xx1, with BLEN; the KIND bits of the word are kept and ignored (R61, R63, R80). -/
  | decode (kindBits : BitVec 2) (blen : Nat)
  /-- `RESERVED.ENCODE_KIND3`: CMD 110, an ENCODE request whose kind code names no Kind (R62, R63, R117). -/
  | reservedEncodeKind3 (seq : BitVec 64) (plen : Nat)
  /-- `FRAME_HEADER`: the 104-bit header, H[103:72], H[71:64] and H[63:0] (R54). -/
  | frameHeader (totalLen : BitVec 32) (tag : BitVec 8) (seq : BitVec 64)
  /-- `TAG.DATA`: the type byte 0x00 (R57). -/
  | tagData
  /-- `TAG.ACK`: the type byte 0x01 (R57). -/
  | tagAck
  /-- `TAG.SYN`: the type byte 0x02 (R57). -/
  | tagSyn
  /-- `TAG.RESERVED`: a type byte 0x03 to 0xFF (R58). -/
  | tagReserved (tag : BitVec 8)
deriving DecidableEq, Repr

end Sys2Proof
end

