-- ==== Sys2Proof/WellFormed.lean ====
section
/-! DEFINITION. Which instruction terms stand for words of the spec's encodings. -/

namespace Sys2Proof

/-- The one check the types leave: a reserved tag is 0x03 to 0xFF (R58). Every other operand takes every value of its
field: SEQ any 64 bits (R73), a length any natural (R18), the KIND bits of DECODE any two bits (R63), the header any
104 bits (R54). -/
abbrev Instr.wf : Instr → Prop
  | .encodeData _ _ => True
  | .encodeAck _ _ => True
  | .encodeSyn _ _ => True
  | .decode _ _ => True
  | .reservedEncodeKind3 _ _ => True
  | .frameHeader _ _ _ => True
  | .tagData => True
  | .tagAck => True
  | .tagSyn => True
  | .tagReserved tag => 3 ≤ tag.toNat

end Sys2Proof
end

