-- ==== Sys2Proof/Decode.lean ====
section
/-! DEFINITION. Byte order, the decoder, the encoder, and the opcode table's rows as masks and patterns
(spec/30_encoding.md, spec/opcode_table.json). -/

namespace Sys2Proof

/-! ### Byte order -/

/-- `be_N`: the big-endian value of a buffer, offset 0 most significant (R6). -/
def beNat : List Byte → Nat
  | [] => 0
  | b :: bs => b.toNat * 256 ^ bs.length + beNat bs

/-- `bytes_be_N`: the `n` bytes, most significant first, whose big-endian value is `v` modulo 256^n (R6). -/
def bytesBE : Nat → Nat → List Byte
  | 0, _ => []
  | n + 1, v => BitVec.ofNat 8 (v / 256 ^ n) :: bytesBE n v

/-! ### Words and the decoder -/

/-- An encoded instruction, in one of the three formats of spec/opcode_table.json. -/
inductive Words where
  /-- Format CMD3: the command word with the SEQ and the length field of the request record (R61). -/
  | command (cmd : BitVec 3) (seq : BitVec 64) (len : Nat)
  /-- Format WIRE104: the bytes of a frame header, offset 0 first (R54). -/
  | header (bytes : List Byte)
  /-- Format WIRE_TAG8: the bytes of a type field (R57). -/
  | tag (bytes : List Byte)
deriving DecidableEq, Repr

/-- Why a word names no instruction. A command word always names one (R63). -/
inductive DecodeError where
  /-- A header that is not exactly 13 bytes (R60: "the header is always 13 bytes"). -/
  | headerNotThirteenBytes
  /-- A type field that is not exactly one byte (R1: TAG_BYTES = 1). -/
  | tagNotOneByte
deriving DecidableEq, Repr

/-- CMD[0], the OP bit: true for DECODE (R61). -/
def opBit (cmd : BitVec 3) : Bool := cmd.getLsbD 0

/-- CMD[2:1], the KIND field (R61). -/
def kindField (cmd : BitVec 3) : BitVec 2 := cmd.extractLsb' 1 2

/-- The complete command map of R63. -/
def decodeCommand (cmd : BitVec 3) (seq : BitVec 64) (len : Nat) : Instr :=
  if opBit cmd then .decode (kindField cmd) len
  else if kindField cmd = 0b00#2 then .encodeData seq len
  else if kindField cmd = 0b01#2 then .encodeAck seq len
  else if kindField cmd = 0b10#2 then .encodeSyn seq len
  else .reservedEncodeKind3 seq len

/-- A header read as H = be_13(bytes) and split into H[103:72], H[71:64], H[63:0] (R54). -/
def decodeHeader (bytes : List Byte) : Except DecodeError Instr :=
  if bytes.length = 13 then
    let h : BitVec 104 := BitVec.ofNat 104 (beNat bytes)
    .ok (.frameHeader (h.extractLsb' 72 32) (h.extractLsb' 64 8) (h.extractLsb' 0 64))
  else .error .headerNotThirteenBytes

/-- The type byte (R57, R58). -/
def decodeTag : List Byte → Except DecodeError Instr
  | [t] =>
    if t = 0x00#8 then .ok .tagData
    else if t = 0x01#8 then .ok .tagAck
    else if t = 0x02#8 then .ok .tagSyn
    else .ok (.tagReserved t)
  | _ => .error .tagNotOneByte

/-- The decoder, total on every word. -/
def decode : Words → Except DecodeError Instr
  | .command cmd seq len => .ok (decodeCommand cmd seq len)
  | .header bytes => decodeHeader bytes
  | .tag bytes => decodeTag bytes

/-! ### The encoder -/

/-- CMD from its fields: KIND in CMD[2:1], OP in CMD[0] (R61). -/
def cmdWord (kind : BitVec 2) (op : BitVec 1) : BitVec 3 := kind ++ op

/-- The words of an instruction, from R54, R57, R58, R61 and R63. A DECODE request carries no SEQ (R61): the record's
SEQ field is written as zero (log 9). -/
def encode : Instr → Words
  | .encodeData seq plen => .command (cmdWord 0b00#2 0b0#1) seq plen
  | .encodeAck seq plen => .command (cmdWord 0b01#2 0b0#1) seq plen
  | .encodeSyn seq plen => .command (cmdWord 0b10#2 0b0#1) seq plen
  | .decode kindBits blen => .command (cmdWord kindBits 0b1#1) 0 blen
  | .reservedEncodeKind3 seq plen => .command (cmdWord 0b11#2 0b0#1) seq plen
  | .frameHeader totalLen tag seq => .header (bytesBE 4 totalLen.toNat ++ [tag] ++ bytesBE 8 seq.toNat)
  | .tagData => .tag [0x00#8]
  | .tagAck => .tag [0x01#8]
  | .tagSyn => .tag [0x02#8]
  | .tagReserved tag => .tag [tag]

/-! ### The opcode table -/

/-- The rows of spec/opcode_table.json, in its order. -/
inductive Row where
  | encodeData
  | encodeAck
  | encodeSyn
  | decode
  | reservedEncodeKind3
  | frameHeader
  | tagData
  | tagAck
  | tagSyn
  | tagReserved
deriving DecidableEq, Repr

/-- The table's rows as a list. -/
def Row.all : List Row :=
  [.encodeData, .encodeAck, .encodeSyn, .decode, .reservedEncodeKind3,
    .frameHeader, .tagData, .tagAck, .tagSyn, .tagReserved]

/-- Does the word have the row's format, and do its bits meet the row's match and mask (for TAG.RESERVED: its range)? -/
def Row.covers : Row → Words → Bool
  | .encodeData, .command cmd _ _ => cmd &&& 0b111#3 == 0b000#3
  | .encodeAck, .command cmd _ _ => cmd &&& 0b111#3 == 0b010#3
  | .encodeSyn, .command cmd _ _ => cmd &&& 0b111#3 == 0b100#3
  | .decode, .command cmd _ _ => cmd &&& 0b001#3 == 0b001#3
  | .reservedEncodeKind3, .command cmd _ _ => cmd &&& 0b111#3 == 0b110#3
  | .frameHeader, .header bytes => bytes.length == 13
  | .tagData, .tag [t] => t &&& 0xFF#8 == 0x00#8
  | .tagAck, .tag [t] => t &&& 0xFF#8 == 0x01#8
  | .tagSyn, .tag [t] => t &&& 0xFF#8 == 0x02#8
  | .tagReserved, .tag [t] => Nat.ble 3 t.toNat
  | _, _ => false

/-- The row an instruction stands for. -/
def Instr.row : Instr → Row
  | .encodeData _ _ => .encodeData
  | .encodeAck _ _ => .encodeAck
  | .encodeSyn _ _ => .encodeSyn
  | .decode _ _ => .decode
  | .reservedEncodeKind3 _ _ => .reservedEncodeKind3
  | .frameHeader _ _ _ => .frameHeader
  | .tagData => .tagData
  | .tagAck => .tagAck
  | .tagSyn => .tagSyn
  | .tagReserved _ => .tagReserved

/-! ### Table words -/

/-- A table word laid out for the decoder (log 8). Up to 8 bits: a number below 8 is the CMD3 word, the request's other
fields being zero, and any other byte is a type byte. The table gives CMD3 and WIRE_TAG8 rows the same numbers 0 to 7 and
nothing to tell them apart, so a command word goes first. More than 8 bits: the one 104-bit word H, sent most significant
byte first (R54). -/
def tableWords (nbits w : Nat) : Words :=
  if nbits ≤ 8 then
    if w % 256 < 8 then .command (BitVec.ofNat 3 w) 0 0
    else .tag [BitVec.ofNat 8 w]
  else .header (bytesBE 13 w)

/-- What the decoder reads from a word numbered as the opcode table numbers it. -/
def decodeTableWord (nbits w : Nat) : Option Instr :=
  (decode (tableWords nbits w)).toOption

end Sys2Proof
end

