-- ==== Sys2Proof/Config.lean ====
section
/-! DEFINITION. The implementation parameters of rule R2 (spec/00_scope.md), which a model takes as arguments. -/

namespace Sys2Proof

/-- The parameters R2 leaves to an implementation. One machine has one value of them for ever: `State.cfg` holds it, no
step changes it, and every statement holds for every value of it. -/
structure Config where
  /-- `NUM_ENGINES`, OPEN, at least 1 (R2, D13). -/
  numEngines : Nat
  /-- `MAX_IN_LEN`, OPEN: the bytes of an engine's input space (R2, D8). -/
  maxInLen : Nat
  /-- `MAX_OUT_LEN`, at least MAX_TOTAL_LEN: the bytes of an engine's output space (R2, D9). -/
  maxOutLen : Nat
  /-- `LEN_W`, OPEN, at least 33: the bits of a length field in a binary binding (R2, D7). -/
  lenW : Nat
deriving DecidableEq, Repr

/-- The bounds R2 puts on the parameters. DEDUCED (safe, log 1): that MAX_IN_LEN fits LEN_W bits, from R18's
"the response fields are wide enough for every value a command can put in them". -/
abbrev Config.wf (c : Config) : Prop :=
  1 ≤ c.numEngines ∧ maxTotalLen ≤ c.maxOutLen ∧ 33 ≤ c.lenW ∧ c.maxInLen < 2 ^ c.lenW

/-- The parameters of `State.reset`. DESIGN CHOICE (unsafe, log 1): the spec leaves NUM_ENGINES, MAX_IN_LEN and LEN_W
open; these admit every vector and program of spec/95_test_vectors.md. No statement rests on them. -/
def Config.chosen : Config where
  numEngines := 2
  maxInLen := 4294967296
  maxOutLen := 4294967295
  lenW := 33

end Sys2Proof
end

