-- ==== Sys2Proof/Machine/State.lean ====
section
/-! DEFINITION. The state of the block (spec/10_state.md, spec/20_memory.md) and of the host that drives it, and the
reasons a step can stop. -/

namespace Sys2Proof.Machine

/-! ### Logical data (10_state.md section 1) -/

/-- The closed set of kinds (R10). -/
inductive Kind where
  | data
  | ack
  | syn
deriving DecidableEq, Repr

/-- A segment; two segments are equal when all three fields are (R11, R13). -/
structure Segment where
  kind : Kind
  sequence : Seq
  payload : List Byte
deriving DecidableEq, Repr

/-- The closed set of four errors with their arguments (R14, R101 to R105). -/
inductive CodecError where
  /-- R101: a DECODE buffer of fewer than 4 bytes. -/
  | tooShort
  /-- R102: the total_len read, and the buffer's length. -/
  | invalidTotalLen (declared : BitVec 32) (actual : Nat)
  /-- R103: the type byte read. -/
  | unknownType (tag : Byte)
  /-- R104: the exact value 13 + payload length. -/
  | totalLenOverflow (computed : Nat)
deriving DecidableEq, Repr

/-! ### The interface records (10_state.md sections 2.1 and 2.2) -/

/-- A request record: the command word CMD, SEQ and the length field (PLEN or BLEN), as the host writes them (R16, R23,
R61). A length is an exact natural (R18). A DECODE request has no SEQ: `seq` is then not read (log 9). -/
structure Request where
  cmd : BitVec 3
  seq : Seq
  len : Nat
deriving DecidableEq, Repr

/-- The six response forms, each with only its own fields (R17). Lengths are naturals (R18); STATUS is a function of the
form (`Response.status`); the KIND field holds a Kind, whose 2-bit code is `Kind.code` (R62, R91). -/
inductive Response where
  | okEncode (olen : Nat)
  | okDecode (kind : Kind) (seq : Seq) (plen : Nat)
  | errTooShort
  | errInvalidTotalLen (declared : BitVec 32) (actual : Nat)
  | errUnknownType (tag : Byte)
  | errTotalLenOverflow (computed : Nat)
deriving DecidableEq, Repr

/-! ### Engines (10_state.md section 2.3) -/

/-- The phase of an engine, with the request while it is BUSY and the response while it is DONE: R20 gives them a meaning
only then. -/
inductive Phase where
  | idle
  | busy (req : Request)
  | done (rsp : Response)
deriving DecidableEq, Repr

/-- A byte space: the listed bytes, addresses rising, in the canonical form `Memory.wf`. -/
structure Memory where
  cells : List Host.Cell
deriving DecidableEq, Repr

/-- One engine: its phase (with request or response) and its two byte spaces (R20, R29). The two spaces are two fields, so
they are disjoint (R31). -/
structure Engine where
  phase : Phase
  inMem : Memory
  outMem : Memory
deriving DecidableEq, Repr

/-! ### The host -/

/-- The bytes of a host program line (the `<bytes>` of R66). -/
inductive HostBytes where
  /-- `[hh hh ...]`. -/
  | lit (bytes : List Byte)
  /-- `[N x hh]`. -/
  | rep (n : Nat) (b : Byte)
  /-- `<bytes> ++ <bytes>`. -/
  | cat (l r : HostBytes)
  /-- `OUT`. -/
  | out
deriving DecidableEq, Repr

/-- The command of a host program line (R66). -/
inductive HostCommand where
  | encode (kind : Kind) (seq : Seq)
  | decode
deriving DecidableEq, Repr

/-- A line of a host program (R66): its engine, its command and its bytes. -/
structure HostLine where
  engine : Nat
  cmd : HostCommand
  bytes : HostBytes
deriving DecidableEq, Repr

/-- The contents of one engine's spaces that a reset leaves (R124: any value; so the move that resets carries them). -/
structure Contents where
  inCells : List Host.Cell
  outCells : List Host.Cell
deriving DecidableEq, Repr

/-- What can happen next: the transitions of R21, the host's writes to IN (R29, R130), its program lines (R66) and
reset (R122 to R124). -/
inductive Move where
  /-- Engine execute (R21). -/
  | execute (e : Nat)
  /-- Host issue (R21). -/
  | issue (e : Nat) (req : Request)
  /-- Host take (R21). -/
  | take (e : Nat)
  /-- The host writes `bytes` into IN[e] from offset `off` (R29, R130). -/
  | write (e : Nat) (off : Nat) (bytes : List Byte)
  /-- Program lines issued together, and the order in which their engines execute (R66). -/
  | lines (ls : List HostLine) (order : List Nat)
  /-- Reset, and the contents it leaves in the spaces of engines 0, 1, ... (R122 to R124; log 3). -/
  | reset (contents : List Contents)
deriving DecidableEq, Repr

/-- A response the host has taken, with the OUT bytes it covers: one element of the observation of R135. -/
structure Delivery where
  engine : Nat
  rsp : Response
  bytes : List Byte
deriving DecidableEq, Repr

/-! ### The state -/

/-- The whole state: the block's parameters and engines, the moves still to come, and what has been delivered. -/
structure State where
  /-- The parameters of R2. No step changes them. -/
  cfg : Config
  /-- Engines 0 to NUM_ENGINES − 1 (R118). -/
  engines : List Engine
  /-- The moves to come, in the order they happen: one interleaving of the agents (R47; the model's own, log 4). -/
  agenda : List Move
  /-- The responses delivered so far (R135; the host's record, log 5). -/
  delivered : List Delivery
deriving DecidableEq, Repr

/-- An engine after reset: IDLE, with no request and no response (R122). DESIGN CHOICE (unsafe, log 2): nothing is listed
in its spaces, whose contents the spec leaves as any value (R124). -/
def Engine.afterReset : Engine where
  phase := .idle
  inMem := ⟨[]⟩
  outMem := ⟨[]⟩

/-- The machine right after reset (R122 to R126): every engine IDLE, nothing to come, nothing delivered. The parameters
are those of `Config.chosen` (DESIGN CHOICE, log 1). -/
def State.reset : State where
  cfg := Config.chosen
  engines := List.replicate Config.chosen.numEngines Engine.afterReset
  agenda := []
  delivered := []

/-- Whose turn it is: the engine that the front move of the agenda executes, its number, its request, and the moves
after it. -/
structure Turn where
  engine : Nat
  eng : Engine
  req : Request
  rest : List Move
deriving DecidableEq, Repr

/-! ### Why a step stops -/

/-- A step of the host or of the agenda that the spec gives no move (R21, R121, R130 to R132). The block itself has no
fault (R105): no admitted request ever raises one of these. All are safe: the run says nothing from there (log 6). -/
inductive Fault where
  /-- Raised by a meaning when the agenda's front is no execute move: no engine-execute step is due. Safe. -/
  | notEngineTurn
  /-- Raised by every move that names an engine number NUM_ENGINES or more (R118). Safe. -/
  | noSuchEngine
  /-- Raised by the execute move on an engine that is not BUSY: R21 has no such transition. Safe. -/
  | executeNotBusy
  /-- Raised by the issue move on an engine that is not IDLE: "has no step (the host must wait)" (R21). Safe. -/
  | issueNotIdle
  /-- Raised by the take move on an engine that is not DONE: R21 has no such transition; R131 forbids the read. Safe. -/
  | takeNotDone
  /-- Raised by the write move on a BUSY engine: "the host must not write IN[e]" (R130). Safe. -/
  | writeWhileBusy
  /-- Raised by the write move on an offset MAX_IN_LEN or more, which IN does not have (R29); never by a program line. Safe. -/
  | writeOutsideIn
  /-- Raised by a program line whose `OUT` cannot be read: its engine is BUSY (R131), or that engine's previous response
  is not OK_ENCODE or OK_DECODE (R66). Safe. -/
  | outNotReadable
  /-- Raised by a wire word (FRAME_HEADER, TAG.*) when the request in flight is no DECODE: only DECODE reads wire words
  (R54, R59, R84). Safe. -/
  | wireWordNotRead
deriving DecidableEq, Repr

/-- A request the spec gives no meaning (R117), which marks the whole run. -/
inductive Refusal where
  /-- Answered by exec for an instruction that has no meaning in this model yet: none. Safe. -/
  | notModelled (mnemonic : String)
  /-- R117 (a): ENCODE with kind code 0b11; answered by the issue of such a request and by RESERVED.ENCODE_KIND3. Safe. -/
  | reservedKindCode
  /-- R117 (b): a length over MAX_IN_LEN; answered by the issue of such a request, a program line's too, and by its execution.
  Safe. -/
  | requestTooLong
deriving DecidableEq, Repr

end Sys2Proof.Machine
end

