-- ==== Sys2Proof/Machine/Operands.lean ====
section
/-! DEFINITION. The operands: kind codes and tags, the header's bytes, and the request a command word makes
(spec/30_encoding.md). -/

namespace Sys2Proof.Machine

/-- The 2-bit kind code (R62). -/
def Kind.code : Kind → BitVec 2
  | .data => 0b00#2
  | .ack => 0b01#2
  | .syn => 0b10#2

/-- The tag on the wire: `zext_8` of the kind code (R57, R62). -/
def Kind.tag (k : Kind) : Byte := k.code.setWidth 8

/-- The kind of a type byte, if it names one (R57, R58, R84). -/
def kindOfTag (t : Byte) : Option Kind :=
  if t = 0x00#8 then some .data
  else if t = 0x01#8 then some .ack
  else if t = 0x02#8 then some .syn
  else none

/-- The 13 bytes of a header: total_len, type, sequence, no padding (R53, R59). -/
def headerBytes (totalLen : Nat) (tag : Byte) (seq : Seq) : List Byte :=
  bytesBE 4 totalLen ++ [tag] ++ bytesBE 8 seq.toNat

/-- The kind of an ENCODE line as its command (R66). -/
def encodeOf (k : Kind) (seq : Seq) (plen : Nat) : Instr :=
  match k with
  | .data => .encodeData seq plen
  | .ack => .encodeAck seq plen
  | .syn => .encodeSyn seq plen

/-- The request record whose CMD, SEQ and length are an instruction's command words; a wire word has none. -/
def requestOf (i : Instr) : Option Request :=
  match encode i with
  | .command cmd seq len => some ⟨cmd, seq, len⟩
  | .header _ => none
  | .tag _ => none

/-- The instruction a request record selects (R63). -/
def Request.instr (r : Request) : Instr := decodeCommand r.cmd r.seq r.len

end Sys2Proof.Machine
end

