-- ==== Sys2Proof/Machine/Flags.lean ====
section
/-! DEFINITION. STATUS, the block's only condition value (R25), and the binary reading of a response's fields
(R17, R18, R64). -/

namespace Sys2Proof.Machine

/-- The STATUS code of a response (R17, R64). -/
def Response.status : Response → BitVec 3
  | .okEncode _ => 0
  | .okDecode _ _ _ => 0
  | .errTooShort => 1
  | .errInvalidTotalLen _ _ => 2
  | .errUnknownType _ => 3
  | .errTotalLenOverflow _ => 4

/-- The error form of a response (R17, R106). -/
def CodecError.response : CodecError → Response
  | .tooShort => .errTooShort
  | .invalidTotalLen declared actual => .errInvalidTotalLen declared actual
  | .unknownType tag => .errUnknownType tag
  | .totalLenOverflow computed => .errTotalLenOverflow computed

/-- The bytes of OUT, from offset 0, that a response covers (R17). -/
def Response.covered : Response → Nat
  | .okEncode olen => olen
  | .okDecode _ _ plen => plen
  | .errTooShort => 0
  | .errInvalidTotalLen _ _ => 0
  | .errUnknownType _ => 0
  | .errTotalLenOverflow _ => 0

/-- Is it one of the two success forms (R17)? -/
def Response.ok : Response → Bool
  | .okEncode _ => true
  | .okDecode _ _ _ => true
  | .errTooShort => false
  | .errInvalidTotalLen _ _ => false
  | .errUnknownType _ => false
  | .errTotalLenOverflow _ => false

/-- The names of the response fields (R17). -/
inductive FieldName where
  | status
  | olen
  | kind
  | seq
  | plen
  | declared
  | actual
  | tag
  | computed
deriving DecidableEq, Repr

/-- The width of a field in a binary binding whose lengths have `lenW` bits (R17, R64). -/
def FieldName.width (lenW : Nat) : FieldName → Nat
  | .status => 3
  | .olen => 32
  | .kind => 2
  | .seq => 64
  | .plen => 32
  | .declared => 32
  | .actual => lenW
  | .tag => 8
  | .computed => lenW + 1

/-- The value of a field of a response; a field not listed for the form does not exist (R17). -/
def Response.field? : Response → FieldName → Option Nat
  | r, .status => some r.status.toNat
  | .okEncode olen, .olen => some olen
  | .okDecode kind _ _, .kind => some kind.code.toNat
  | .okDecode _ seq _, .seq => some seq.toNat
  | .okDecode _ _ plen, .plen => some plen
  | .errInvalidTotalLen declared _, .declared => some declared.toNat
  | .errInvalidTotalLen _ actual, .actual => some actual
  | .errUnknownType tag, .tag => some tag.toNat
  | .errTotalLenOverflow computed, .computed => some computed
  | _, _ => none

end Sys2Proof.Machine
end

