-- ==== Sys2Proof/Machine/Ops.lean ====
section
/-! DEFINITION. The named operations: bytes of a space, engines of a state, fetching a request, answering it, raising an
error and returning from one (spec/00_scope.md R7 and R8, spec/20_memory.md, spec/60_exceptions.md). -/

namespace Sys2Proof.Machine

/-! ### Byte spaces -/

/-- What an unlisted offset reads as. DESIGN CHOICE (unsafe, log 2): R124 leaves the contents after reset as any value. -/
def unlistedByte : Byte := 0

/-- The byte a list of cells gives at an offset. -/
def cellAt : List Host.Cell → Nat → Byte
  | [], _ => unlistedByte
  | c :: cs, a => if a = c.1 then c.2 else cellAt cs a

/-- The list of cells with the byte at offset `a` replaced, in the canonical form. -/
def putCell : List Host.Cell → Nat → Byte → List Host.Cell
  | [], a, v => if v = unlistedByte then [] else [(a, v)]
  | c :: cs, a, v =>
    if a < c.1 then (if v = unlistedByte then c :: cs else (a, v) :: c :: cs)
    else if a = c.1 then (if v = unlistedByte then cs else (a, v) :: cs)
    else c :: putCell cs a v

/-- Reading one byte. It has no side effect (R39). -/
def Memory.read (m : Memory) (a : Nat) : Byte := cellAt m.cells a

/-- Writing one byte. -/
def Memory.write (m : Memory) (a : Nat) (v : Byte) : Memory := ⟨putCell m.cells a v⟩

/-- `MemRead(m, a, n)`: the bytes at offsets a to a + n − 1 (R7, R36). -/
def Memory.readN (m : Memory) (a : Nat) : Nat → List Byte
  | 0 => []
  | n + 1 => m.read a :: Memory.readN m (a + 1) n

/-- `MemWrite(m, a, n, bs)`, n being the length of bs (R7, R36). -/
def Memory.writeN (m : Memory) (a : Nat) : List Byte → Memory
  | [] => m
  | b :: bs => Memory.writeN (m.write a b) (a + 1) bs

/-- The canonical form: offsets strictly rising, and no entry equal to what an unlisted offset reads as. -/
abbrev Memory.wf (m : Memory) : Prop :=
  m.cells.Pairwise (fun c d => c.1 < d.1) ∧ ∀ c ∈ m.cells, c.2 ≠ unlistedByte

/-- Every listed offset is below the space's capacity (R29). -/
abbrev Memory.within (m : Memory) (cap : Nat) : Prop := ∀ c ∈ m.cells, c.1 < cap

/-- The space whose bytes are those of a list of cells below a capacity, in the canonical form; of two cells with one
offset the first stands. -/
def Memory.ofCells (cap : Nat) : List Host.Cell → Memory
  | [] => ⟨[]⟩
  | c :: cs => if c.1 < cap then (Memory.ofCells cap cs).write c.1 c.2 else Memory.ofCells cap cs

/-! ### Engines -/

/-- The state with engine `e` replaced. -/
def State.setEngine (s : State) (e : Nat) (eng : Engine) : State := { s with engines := s.engines.set e eng }

/-- The state with another agenda. -/
def State.setAgenda (s : State) (ms : List Move) : State := { s with agenda := ms }

/-- The state with one more delivery. -/
def State.deliver (s : State) (d : Delivery) : State := { s with delivered := s.delivered ++ [d] }

/-! ### Fetching a request -/

/-- The engine whose execute step is next, with its request (R20, R21). -/
def turn (s : State) : Except Fault Turn :=
  match s.agenda with
  | .execute e :: rest =>
    match s.engines[e]? with
    | none => .error .noSuchEngine
    | some eng =>
      match eng.phase with
      | .busy req => .ok ⟨e, eng, req, rest⟩
      | .idle => .error .executeNotBusy
      | .done _ => .error .executeNotBusy
  | _ => .error .notEngineTurn

/-- A meaning that acts on the engine whose turn it is. -/
def atTurn (s : State) (k : Turn → Host.Outcome State Fault Refusal) : Host.Outcome State Fault Refusal :=
  match turn s with
  | .ok t => k t
  | .error f => .fault f

/-- The lowest-numbered BUSY engine of a list that starts at engine `e` (R134's fairness; log 4). -/
def firstBusy : Nat → List Engine → Option Nat
  | _, [] => none
  | e, eng :: rest =>
    match eng.phase with
    | .busy _ => some e
    | .idle => firstBusy (e + 1) rest
    | .done _ => firstBusy (e + 1) rest

/-- The refusal a request meets, if any (R117). -/
def Request.refusal? (c : Config) (r : Request) : Option Refusal :=
  if r.cmd = 0b110#3 then some .reservedKindCode
  else if c.maxInLen < r.len then some .requestTooLong
  else none

/-! ### Answering -/

/-- The end of an engine-execute step (R21): DONE with the response, OUT as the command left it, the move used up. -/
def respond (s : State) (t : Turn) (out : Memory) (r : Response) : Host.Outcome State Fault Refusal :=
  .next ((s.setEngine t.engine { t.eng with phase := .done r, outMem := out }).setAgenda t.rest)

/-- Taking an exception: `raise E(info)` (R8, R106). The engine becomes DONE with the error form; no byte of OUT is
written and nothing else is saved. -/
def raiseError (s : State) (t : Turn) (err : CodecError) : Host.Outcome State Fault Refusal :=
  respond s t t.eng.outMem err.response

/-- The host takes a response, an error like any other (R21, R107): the engine becomes IDLE, and the response with the OUT
bytes it covers is delivered (R135). This is the return from an error: there is no other (R107). -/
def hostTake (s : State) (e : Nat) : Host.Outcome State Fault Refusal :=
  match s.engines[e]? with
  | none => .fault .noSuchEngine
  | some eng =>
    match eng.phase with
    | .done r =>
      .next ((s.setEngine e { eng with phase := .idle }).deliver ⟨e, r, eng.outMem.readN 0 r.covered⟩)
    | .idle => .fault .takeNotDone
    | .busy _ => .fault .takeNotDone

end Sys2Proof.Machine
end

