-- ==== Sys2Proof/Machine/DecodeCommand.lean ====
section
/-! DEFINITION. The DECODE command (spec/41_decode.md R80). -/

namespace Sys2Proof.Machine

/-- The total_len of the buffer in a space: `be_4(MemRead(IN, 0, 4))`, 32 bits (R59, R82). -/
def totalLenAt (m : Memory) : BitVec 32 := BitVec.ofNat 32 (beNat (m.readN 0 4))

/-- The sequence of the buffer in a space: `be_8(MemRead(IN, 5, 8))` (R59, R85). -/
def seqAt (m : Memory) : Seq := BitVec.ofNat 64 (beNat (m.readN 5 8))

/-- The pseudocode of R80 on the received buffer `inp[0 .. blen)`, after the refusal of R117 (b). `inp` is the snapshot of
IN that the command reads (R40). -/
def runDecode (inp : Memory) (blen : Nat) (s : State) (t : Turn) : Host.Outcome State Fault Refusal :=
  if s.cfg.maxInLen < blen then .refused .requestTooLong
  else if blen < 4 then raiseError s t .tooShort
  else if (totalLenAt inp).toNat < 13 ∨ blen < (totalLenAt inp).toNat then
    raiseError s t (.invalidTotalLen (totalLenAt inp) blen)
  else
    match kindOfTag (inp.read 4) with
    | none => raiseError s t (.unknownType (inp.read 4))
    | some kind =>
      respond s t (t.eng.outMem.writeN 0 (inp.readN 13 ((totalLenAt inp).toNat - 13)))
        (.okDecode kind (seqAt inp) ((totalLenAt inp).toNat - 13))

/-- DECODE (R80): the KIND bits of the command word are ignored (R61). -/
def execDecode (_kindBits : BitVec 2) (blen : Nat) (s : State) : Host.Outcome State Fault Refusal :=
  atTurn s (fun t => runDecode t.eng.inMem blen s t)

end Sys2Proof.Machine
end

