-- ==== Sys2Proof/Machine/Encode.lean ====
section
/-! DEFINITION. The ENCODE commands (spec/40_encode.md R68) and the reserved ENCODE word (R117). -/

namespace Sys2Proof.Machine

/-- The OUT space after ENCODE's four writes (R68, R71): total_len, type, sequence, payload. -/
def writeFrame (out : Memory) (kind : Kind) (seq : Seq) (payload : List Byte) : Memory :=
  let out := out.writeN 0 (bytesBE 4 (13 + payload.length))
  let out := out.writeN 4 [kind.tag]
  let out := out.writeN 5 (bytesBE 8 seq.toNat)
  out.writeN 13 payload

/-- The pseudocode of R68, after the refusal of R117 (b). -/
def runEncode (kind : Kind) (seq : Seq) (plen : Nat) (s : State) (t : Turn) : Host.Outcome State Fault Refusal :=
  if s.cfg.maxInLen < plen then .refused .requestTooLong
  else if 13 + plen > maxTotalLen then raiseError s t (.totalLenOverflow (13 + plen))
  else respond s t (writeFrame t.eng.outMem kind seq (t.eng.inMem.readN 0 plen)) (.okEncode (13 + plen))

/-- ENCODE.DATA (R68). -/
def execEncodeData (seq : Seq) (plen : Nat) (s : State) : Host.Outcome State Fault Refusal :=
  atTurn s (runEncode .data seq plen s)

/-- ENCODE.ACK (R68). -/
def execEncodeAck (seq : Seq) (plen : Nat) (s : State) : Host.Outcome State Fault Refusal :=
  atTurn s (runEncode .ack seq plen s)

/-- ENCODE.SYN (R68). -/
def execEncodeSyn (seq : Seq) (plen : Nat) (s : State) : Host.Outcome State Fault Refusal :=
  atTurn s (runEncode .syn seq plen s)

/-- RESERVED.ENCODE_KIND3 (R62, R63, R117 (a)): the word names no Kind, whatever SEQ and PLEN are; the run is refused. -/
def execReservedEncodeKind3 (_seq : Seq) (_plen : Nat) (_s : State) : Host.Outcome State Fault Refusal :=
  .refused .reservedKindCode

end Sys2Proof.Machine
end

