-- ==== Sys2Proof/Machine/Wire.lean ====
section
/-! DEFINITION. The wire words of spec/opcode_table.json: FRAME_HEADER (R54) and the type tags (R57, R58). They are not
commands (R63, R114). As instructions each is the DECODE step of the request in flight on a received buffer that holds the
word at its place: the header at offsets 0 to 12, the type byte at offset 4 (DESIGN CHOICE, log 7). IN itself is not
changed (R44). -/

namespace Sys2Proof.Machine

/-- The DECODE request in flight, run on its buffer with the given bytes at the given offset. -/
def runWire (off : Nat) (bytes : List Byte) (s : State) (t : Turn) : Host.Outcome State Fault Refusal :=
  if opBit t.req.cmd then runDecode (t.eng.inMem.writeN off bytes) t.req.len s t
  else .fault .wireWordNotRead

/-- FRAME_HEADER (R54): total_len, type and sequence as DECODE Steps 2 to 5 read them. -/
def execFrameHeader (totalLen : BitVec 32) (tag : BitVec 8) (seq : BitVec 64) (s : State) :
    Host.Outcome State Fault Refusal :=
  atTurn s (runWire 0 (headerBytes totalLen.toNat tag seq) s)

/-- TAG.DATA (R57): Step 4 gives Data. -/
def execTagData (s : State) : Host.Outcome State Fault Refusal :=
  atTurn s (runWire 4 [0x00#8] s)

/-- TAG.ACK (R57): Step 4 gives Ack. -/
def execTagAck (s : State) : Host.Outcome State Fault Refusal :=
  atTurn s (runWire 4 [0x01#8] s)

/-- TAG.SYN (R57): Step 4 gives Syn. -/
def execTagSyn (s : State) : Host.Outcome State Fault Refusal :=
  atTurn s (runWire 4 [0x02#8] s)

/-- TAG.RESERVED (R58): Step 4 raises UnknownType with the byte. -/
def execTagReserved (tag : BitVec 8) (s : State) : Host.Outcome State Fault Refusal :=
  atTurn s (runWire 4 [tag] s)

end Sys2Proof.Machine
end

