-- ==== Sys2Proof/Machine/Dispatch.lean ====
section
/-! DEFINITION. The meaning of each instruction, one direct call an arm. -/

namespace Sys2Proof.Machine

def exec (i : Instr) (s : State) : Host.Outcome State Fault Refusal :=
  match i with
  -- command words (R63)
  | .encodeData seq plen => Sys2Proof.Machine.execEncodeData seq plen s
  | .encodeAck seq plen => Sys2Proof.Machine.execEncodeAck seq plen s
  | .encodeSyn seq plen => Sys2Proof.Machine.execEncodeSyn seq plen s
  | .decode kindBits blen => Sys2Proof.Machine.execDecode kindBits blen s
  | .reservedEncodeKind3 seq plen => Sys2Proof.Machine.execReservedEncodeKind3 seq plen s
  -- wire words (R54, R57, R58)
  | .frameHeader totalLen tag seq => Sys2Proof.Machine.execFrameHeader totalLen tag seq s
  | .tagData => Sys2Proof.Machine.execTagData s
  | .tagAck => Sys2Proof.Machine.execTagAck s
  | .tagSyn => Sys2Proof.Machine.execTagSyn s
  | .tagReserved tag => Sys2Proof.Machine.execTagReserved tag s

end Sys2Proof.Machine
end

