-- ==== Sys2Proof/Machine/HostMoves.lean ====
section
/-! DEFINITION. The host's moves other than take, and reset (spec/30_encoding.md R66, spec/70_reset_and_hazards.md). -/

namespace Sys2Proof.Machine

/-- Host issue (R21): an IDLE engine becomes BUSY with the request. A request of R117 marks the run refused at once
(log 10). -/
def hostIssue (s : State) (e : Nat) (r : Request) : Host.Outcome State Fault Refusal :=
  match s.engines[e]? with
  | none => .fault .noSuchEngine
  | some eng =>
    match eng.phase with
    | .idle =>
      match r.refusal? s.cfg with
      | some why => .refused why
      | none => .next (s.setEngine e { eng with phase := .busy r })
    | .busy _ => .fault .issueNotIdle
    | .done _ => .fault .issueNotIdle

/-- The host writes bytes into IN (R29), which it must not do while the engine is BUSY (R130). -/
def hostWrite (s : State) (e off : Nat) (bytes : List Byte) : Host.Outcome State Fault Refusal :=
  match s.engines[e]? with
  | none => .fault .noSuchEngine
  | some eng =>
    match eng.phase with
    | .busy _ => .fault .writeWhileBusy
    | .idle =>
      if off + bytes.length ≤ s.cfg.maxInLen
      then .next (s.setEngine e { eng with inMem := eng.inMem.writeN off bytes }) else .fault .writeOutsideIn
    | .done _ =>
      if off + bytes.length ≤ s.cfg.maxInLen
      then .next (s.setEngine e { eng with inMem := eng.inMem.writeN off bytes }) else .fault .writeOutsideIn

/-- The last response delivered by engine `e`. -/
def lastDelivery (e : Nat) (ds : List Delivery) : Option Delivery :=
  (ds.filter (fun d => d.engine == e)).getLast?

/-- The bytes `OUT` of R66: OUT from offset 0, as long as the engine's previous response says, which must be a success.
A BUSY engine's OUT is not read (R131). -/
def previousOut (s : State) (e : Nat) : Option (List Byte) :=
  match s.engines[e]?, lastDelivery e s.delivered with
  | some eng, some d =>
    match eng.phase with
    | .busy _ => none
    | .idle => if d.rsp.ok then some (eng.outMem.readN 0 d.rsp.covered) else none
    | .done _ => if d.rsp.ok then some (eng.outMem.readN 0 d.rsp.covered) else none
  | _, _ => none

/-- The value of a line's bytes, given the bytes `OUT` stands for (R66). -/
def HostBytes.eval (prev : Option (List Byte)) : HostBytes → Option (List Byte)
  | .lit bytes => some bytes
  | .rep n b => some (List.replicate n b)
  | .cat l r =>
    match l.eval prev, r.eval prev with
    | some x, some y => some (x ++ y)
    | _, _ => none
  | .out => prev

/-- The request a line assembles to, for a number of bytes (R66): CMD = 0b001 for DECODE. -/
def HostCommand.request (n : Nat) : HostCommand → Request
  | .encode kind seq => ⟨cmdWord kind.code 0b0#1, seq, n⟩
  | .decode => ⟨cmdWord 0b00#2 0b1#1, 0, n⟩

/-- The first half of one line (R66): write its bytes into IN from offset 0, then issue. More bytes than IN has cannot be
written: the line is then its issue alone, which R117 (b) refuses (program P3 without its premise; log 12). -/
def HostLine.issueMoves (c : Config) (l : HostLine) (bytes : List Byte) : List Move :=
  if bytes.length ≤ c.maxInLen then [.write l.engine 0 bytes, .issue l.engine (l.cmd.request bytes.length)]
  else [.issue l.engine (l.cmd.request bytes.length)]

/-- The first halves of lines issued together, in their order; none where the bytes of one cannot be read. -/
def issueMoves (s : State) : List HostLine → Option (List Move)
  | [] => some []
  | l :: ls =>
    match l.bytes.eval (previousOut s l.engine), issueMoves s ls with
    | some bytes, some ms => some (l.issueMoves s.cfg bytes ++ ms)
    | _, _ => none

/-- Program lines issued together (R66): all are written and issued, then the engines execute in the given order, then the
host takes each response. -/
def hostLines (s : State) (ls : List HostLine) (order : List Nat) (rest : List Move) :
    Host.Outcome State Fault Refusal :=
  match issueMoves s ls with
  | none => .fault .outNotReadable
  | some ms => .next (s.setAgenda (ms ++ order.map Move.execute ++ ls.map (fun l => Move.take l.engine) ++ rest))

/-- One engine after a reset that leaves the given contents (R122 to R124). -/
def Engine.resetTo (c : Config) (k : Contents) : Engine where
  phase := .idle
  inMem := Memory.ofCells c.maxInLen k.inCells
  outMem := Memory.ofCells c.maxOutLen k.outCells

/-- All engines after a reset; where the move gives an engine no contents, its bytes stay, which R124 allows. -/
def resetEngines (c : Config) : List Engine → List Contents → List Engine
  | [], _ => []
  | eng :: es, [] => { eng with phase := .idle } :: resetEngines c es []
  | _ :: es, k :: ks => Engine.resetTo c k :: resetEngines c es ks

/-- Reset (R122 to R126): every engine IDLE, requests in flight and responses not taken are lost. -/
def hostReset (s : State) (contents : List Contents) : Host.Outcome State Fault Refusal :=
  .next { s with engines := resetEngines s.cfg s.engines contents }

end Sys2Proof.Machine
end

