-- ==== Sys2Proof/Machine/Step.lean ====
section
/-! DEFINITION. One step of the machine: the front move of the agenda happens (log 4). -/

namespace Sys2Proof.Machine

/-- The engine-execute step (R21): the instruction that the BUSY engine's request selects. -/
def executeStep (s : State) : Host.Outcome State Fault Refusal :=
  match turn s with
  | .ok t => exec t.req.instr s
  | .error f => .fault f

/-- One step. With no move to come, a BUSY engine still executes (R134); with none BUSY nothing happens (R120, R135). -/
def step (s : State) : Host.Outcome State Fault Refusal :=
  match s.agenda with
  | [] =>
    match firstBusy 0 s.engines with
    | some e => executeStep (s.setAgenda [.execute e])
    | none => .next s
  | .execute _ :: _ => executeStep s
  | .issue e r :: rest => hostIssue (s.setAgenda rest) e r
  | .take e :: rest => hostTake (s.setAgenda rest) e
  | .write e off bytes :: rest => hostWrite (s.setAgenda rest) e off bytes
  | .lines ls order :: rest => hostLines s ls order rest
  | .reset contents :: rest => hostReset (s.setAgenda rest) contents

/-- The state in which the next step runs the instruction of a table word (log 8): engine 0 BUSY with the command
request, or with the DECODE of a 13-byte buffer that holds the wire word, and its execute move first in the agenda. -/
def State.withFetchWord (s : State) (nbits w : Nat) : State :=
  match s.engines[0]? with
  | none => s
  | some eng =>
    let eng := match tableWords nbits w with
      | .command cmd seq len => { eng with phase := .busy ⟨cmd, seq, len⟩ }
      | .header bytes => { eng with phase := .busy ⟨0b001#3, 0, 13⟩, inMem := eng.inMem.writeN 0 bytes }
      | .tag bytes =>
        { eng with
          phase := .busy ⟨0b001#3, 0, 13⟩
          inMem := (eng.inMem.writeN 0 (headerBytes 13 0 0)).writeN 4 bytes }
    (s.setEngine 0 eng).setAgenda (.execute 0 :: s.agenda)

end Sys2Proof.Machine
end

