-- ==== Sys2Proof/Machine/Codec.lean ====
section
/-! DEFINITION. The two operations as pure functions on segments and buffers: the second form in which R68 and R80 state
them. The machine runs the pseudocode over IN and OUT (Machine/Encode.lean, Machine/DecodeCommand.lean); statements compare
the two. -/

namespace Sys2Proof.Machine

/-- `encode` of R68. -/
def encodeSegment (s : Segment) : Except CodecError (List Byte) :=
  if 13 + s.payload.length > maxTotalLen then .error (.totalLenOverflow (13 + s.payload.length))
  else .ok (bytesBE 4 (13 + s.payload.length) ++ [s.kind.tag] ++ bytesBE 8 s.sequence.toNat ++ s.payload)

/-- The total_len a buffer declares: `be_4(b[0 .. 4))` (R59). -/
def declaredLen (b : List Byte) : Nat := beNat (b.take 4)

/-- `decode` of R80. -/
def decodeBuffer (b : List Byte) : Except CodecError Segment :=
  if b.length < 4 then .error .tooShort
  else if declaredLen b < 13 ∨ b.length < declaredLen b then
    .error (.invalidTotalLen (BitVec.ofNat 32 (declaredLen b)) b.length)
  else
    match kindOfTag (b.getD 4 0) with
    | some kind =>
      .ok ⟨kind, BitVec.ofNat 64 (beNat ((b.drop 5).take 8)), (b.drop 13).take (declaredLen b - 13)⟩
    | none => .error (.unknownType (b.getD 4 0))

end Sys2Proof.Machine
end

