-- ==== Sys2Proof/Safety.lean ====
section
/-! DEFINITION. The terms the statements use: well-formed states, whose turn it is, the observation of a run, and what a
delivered frame is. -/

namespace Sys2Proof.Machine

/-- What a response can hold (R18, R56, R58, R86, R101 to R104). -/
abbrev Response.wf (c : Config) : Response → Prop
  | .okEncode olen => 13 ≤ olen ∧ olen ≤ maxTotalLen ∧ olen ≤ c.maxInLen + 13
  | .okDecode _ _ plen => plen ≤ maxPayloadLen ∧ plen + 13 ≤ c.maxInLen
  | .errTooShort => True
  | .errInvalidTotalLen declared actual =>
    4 ≤ actual ∧ actual ≤ c.maxInLen ∧ (declared.toNat < 13 ∨ actual < declared.toNat)
  | .errUnknownType tag => 3 ≤ tag.toNat
  | .errTotalLenOverflow computed => maxTotalLen < computed ∧ computed ≤ c.maxInLen + 13

/-- What a phase can hold: an admitted request (R22, R117), a response a command can give. -/
abbrev Phase.wf (c : Config) : Phase → Prop
  | .idle => True
  | .busy r => r.refusal? c = none
  | .done r => r.wf c

/-- A well-formed engine: both spaces in canonical form and inside their capacity (R29), the phase well formed. -/
abbrev Engine.wf (c : Config) (eng : Engine) : Prop :=
  eng.inMem.wf ∧ eng.inMem.within c.maxInLen ∧ eng.outMem.wf ∧ eng.outMem.within c.maxOutLen ∧ eng.phase.wf c

/-- A well-formed delivery: of an engine that exists, with as many bytes as its response covers (R17, R135). -/
abbrev Delivery.wf (c : Config) (d : Delivery) : Prop :=
  d.engine < c.numEngines ∧ d.rsp.wf c ∧ d.bytes.length = d.rsp.covered

/-- The invariant of the machine: parameters within R2, NUM_ENGINES engines (R118), all well formed, and so are the
deliveries. -/
abbrev State.Inv (s : State) : Prop :=
  s.cfg.wf ∧ s.engines.length = s.cfg.numEngines ∧ (∀ eng ∈ s.engines, eng.wf s.cfg) ∧ ∀ d ∈ s.delivered, d.wf s.cfg

/-- Engine `e` is `eng`, BUSY with `req`, and its execute step is the next move; `rest` are the moves after it. -/
abbrev State.AtTurn (s : State) (e : Nat) (eng : Engine) (req : Request) (rest : List Move) : Prop :=
  s.agenda = .execute e :: rest ∧ s.engines[e]? = some eng ∧ eng.phase = .busy req

/-- The state after an engine-execute step that answers `r` and leaves `out` in OUT: nothing else changes (R21, R44). -/
def State.answered (s : State) (e : Nat) (eng : Engine) (rest : List Move) (out : Memory) (r : Response) : State :=
  { s with engines := s.engines.set e { eng with phase := .done r, outMem := out }, agenda := rest }

/-- The cells that hold the given bytes from offset `a` on. -/
def cellsFrom : Nat → List Byte → List Host.Cell
  | _, [] => []
  | a, b :: bs => (a, b) :: cellsFrom (a + 1) bs

/-- The contents of a reset that leaves the given bytes in IN and OUT from offset 0. -/
def contentsOf (w : List Byte × List Byte) : Contents where
  inCells := cellsFrom 0 w.1
  outCells := cellsFrom 0 w.2

/-- The observation of engine `e`: the responses it delivered with the OUT bytes they cover, in its issue order (R135). -/
def State.observation (s : State) (e : Nat) : List (Response × List Byte) :=
  (s.delivered.filter (fun d => d.engine == e)).map (fun d => (d.rsp, d.bytes))

/-- The run has ended: every engine is IDLE and the host has nothing more to do (R135). -/
abbrev State.finished (s : State) : Prop := s.agenda = [] ∧ ∀ eng ∈ s.engines, eng.phase = .idle

/-- The number of BUSY engines. -/
def State.busyCount (s : State) : Nat :=
  (s.engines.filter (fun eng => match eng.phase with
    | .busy _ => true
    | .idle => false
    | .done _ => false)).length

/-- `b` is a frame of `n` bytes: its length field says `n`, and DECODE accepts it (R56, R79, R95). -/
def IsFrame (n : Nat) (b : List Byte) : Prop :=
  b.length = n ∧ declaredLen b = n ∧ ∃ seg, decodeBuffer b = .ok seg

/-- Every OK_ENCODE response, delivered or waiting in a DONE engine, covers a frame. -/
def State.FramesValid (s : State) : Prop :=
  (∀ eng ∈ s.engines, ∀ n, eng.phase = .done (.okEncode n) → IsFrame n (eng.outMem.readN 0 n)) ∧
  ∀ d ∈ s.delivered, ∀ n, d.rsp = .okEncode n → IsFrame n d.bytes

/-- The next state of an outcome, if it is one. -/
def nextOf : Host.Outcome State Fault Refusal → Option State
  | .next s => some s
  | .fault _ => none
  | .refused _ => none

/-- The fault of an outcome, if it is one. -/
def faultOf : Host.Outcome State Fault Refusal → Option Fault
  | .next _ => none
  | .fault f => some f
  | .refused _ => none

/-- The refusal of an outcome, if it is one. -/
def refusalOf : Host.Outcome State Fault Refusal → Option Refusal
  | .next _ => none
  | .fault _ => none
  | .refused r => some r

end Sys2Proof.Machine
end

