-- ==== Sys2Proof/Certificates/Slice0/Obligations.lean ====
section
/-! DEFINITION. The statements about the model. Each docstring names the rule of spec/ it formalises, or says what it rests
on. "At the turn of engine e" is `State.AtTurn`; `State.answered` is the state in which engine e is DONE with a response and
its OUT is as given, the execute move is used up, and nothing else has changed. -/

open Sys2Proof Sys2Proof.Machine

/-! ### Encodings -/

/-- R63: the complete command map. CMD 110 is refused in every state, and the KIND bits of DECODE change nothing. -/
def Obligations.CommandWordsNameTheirCommands : Prop :=
  ∀ (seq : Seq) (len : Nat) (k k' : BitVec 2) (s : State),
    decode (.command 0b000#3 seq len) = .ok (.encodeData seq len) ∧
    decode (.command 0b010#3 seq len) = .ok (.encodeAck seq len) ∧
    decode (.command 0b100#3 seq len) = .ok (.encodeSyn seq len) ∧
    decode (.command 0b110#3 seq len) = .ok (.reservedEncodeKind3 seq len) ∧
    decode (.command 0b001#3 seq len) = .ok (.decode 0b00#2 len) ∧
    decode (.command 0b011#3 seq len) = .ok (.decode 0b01#2 len) ∧
    decode (.command 0b101#3 seq len) = .ok (.decode 0b10#2 len) ∧
    decode (.command 0b111#3 seq len) = .ok (.decode 0b11#2 len) ∧
    exec (.reservedEncodeKind3 seq len) s = .refused .reservedKindCode ∧
    exec (.decode k len) s = exec (.decode k' len) s

/-- From R54, R57, R58: wire words written out by hand decode to what they stand for. -/
def Obligations.WireWordsDecodeAsWritten : Prop :=
  decode (.tag [0x00#8]) = .ok .tagData ∧
  decode (.tag [0x01#8]) = .ok .tagAck ∧
  decode (.tag [0x02#8]) = .ok .tagSyn ∧
  decode (.tag [0x03#8]) = .ok (.tagReserved 0x03#8) ∧
  decode (.tag [0xFF#8]) = .ok (.tagReserved 0xFF#8) ∧
  decode (.header [0x00#8, 0x00#8, 0x00#8, 0x10#8, 0x02#8, 0x00#8, 0x00#8, 0x00#8, 0x00#8, 0x00#8, 0x00#8, 0x30#8, 0x39#8])
    = .ok (.frameHeader 16#32 0x02#8 12345#64)

/-- From the encodings of R54, R57, R58, R61, R63: no bit of any operand is dropped. -/
def Obligations.DecodingAnEncodedInstructionGivesItBack : Prop :=
  ∀ i : Instr, i.wf → decode (encode i) = .ok i

/-- From the same rules: every word that decodes is the word of the (well-formed) instruction it decodes to. The one field
that is lost is the SEQ field of a DECODE request record, which no DECODE request carries (R61; the record keeps it as the
model's choice, log 9). -/
def Obligations.EncodingADecodedWordGivesItBack : Prop :=
  ∀ (w : Words) (i : Instr), decode w = .ok i →
    i.wf ∧ (encode i = w ∨ ∃ cmd seq len, w = .command cmd seq len ∧ opBit cmd = true ∧ encode i = .command cmd 0 len)

/-- From spec/opcode_table.json: a word that decodes meets the match and mask of exactly one row, its instruction's. -/
def Obligations.EveryDecodedWordMeetsExactlyItsRow : Prop :=
  ∀ (w : Words) (i : Instr), decode w = .ok i → ∀ r : Row, r.covers w = true ↔ r = i.row

/-- R54: the bit fields of the header H, and the frame byte that holds each of its bits. -/
def Obligations.HeaderBitsStandWhereTheFormatPutsThem : Prop :=
  ∀ h : BitVec 104,
    beNat (bytesBE 13 h.toNat) = h.toNat ∧
    decode (.header (bytesBE 13 h.toNat))
      = .ok (.frameHeader (h.extractLsb' 72 32) (h.extractLsb' 64 8) (h.extractLsb' 0 64)) ∧
    (∀ k, k ≤ 12 → (bytesBE 13 h.toNat)[k]? = some (h.extractLsb' (96 - 8 * k) 8)) ∧
    (∀ k, k ≤ 3 → (bytesBE 13 h.toNat)[k]? = some ((h.extractLsb' 72 32).extractLsb' (24 - 8 * k) 8)) ∧
    (bytesBE 13 h.toNat)[4]? = some (h.extractLsb' 64 8) ∧
    (∀ k, 5 ≤ k → k ≤ 12 → (bytesBE 13 h.toNat)[k]? = some ((h.extractLsb' 0 64).extractLsb' (96 - 8 * k) 8))

/-- R6: `be_N` and `bytes_be_N`, and the source's two examples. -/
def Obligations.BigEndianBytesAndValuesAgree : Prop :=
  (∀ b : List Byte,
    beNat b = ∑ i ∈ Finset.range b.length, (b.getD i 0).toNat * 256 ^ (b.length - 1 - i) ∧
    beNat b < 256 ^ b.length ∧ bytesBE b.length (beNat b) = b) ∧
  (∀ n v : Nat, v < 256 ^ n → (bytesBE n v).length = n ∧ beNat (bytesBE n v) = v) ∧
  bytesBE 4 16 = [0x00#8, 0x00#8, 0x00#8, 0x10#8] ∧
  bytesBE 8 12345 = [0x00#8, 0x00#8, 0x00#8, 0x00#8, 0x00#8, 0x00#8, 0x30#8, 0x39#8]

/-! ### A step runs the decoded instruction -/

/-- From R20, R21, R63: at the turn of an engine, the step runs the instruction its request's command word decodes to. -/
def Obligations.StepRunsTheRequestedCommand : Prop :=
  ∀ (s : State) (e : Nat) (eng : Engine) (req : Request) (rest : List Move), s.AtTurn e eng req rest →
    decode (.command req.cmd req.seq req.len) = .ok req.instr ∧ step s = exec req.instr s

/-- From R53, R54, R80: where the buffer of a DECODE request begins with a header, the step is that header word's meaning.
That the wire words are instructions is the model's choice (log 7). -/
def Obligations.DecodeStepIsItsHeaderWordsMeaning : Prop :=
  ∀ (s : State) (e : Nat) (eng : Engine) (req : Request) (rest : List Move) (bytes : List Byte) (i : Instr),
    s.AtTurn e eng req rest → opBit req.cmd = true → eng.inMem.wf →
    eng.inMem.readN 0 13 = bytes → decode (.header bytes) = .ok i → step s = exec i s

/-- From R57, R58, R84: where the buffer of a DECODE request has a type byte at offset 4, the step is that tag word's
meaning. That the wire words are instructions is the model's choice (log 7). -/
def Obligations.DecodeStepIsItsTagWordsMeaning : Prop :=
  ∀ (s : State) (e : Nat) (eng : Engine) (req : Request) (rest : List Move) (i : Instr),
    s.AtTurn e eng req rest → opBit req.cmd = true → eng.inMem.wf →
    decode (.tag [eng.inMem.read 4]) = .ok i → step s = exec i s

/-! ### ENCODE -/

/-- R71, R72, R73, R76: on success ENCODE.DATA, ENCODE.ACK and ENCODE.SYN write exactly the frame, for every sequence, and
OLEN is its length. The premise `wf` is the invariant of `StepKeepsTheInvariant`. -/
def Obligations.EncodeWritesTheFrame : Prop :=
  ∀ (s : State) (e : Nat) (eng : Engine) (req : Request) (rest : List Move) (seq : Seq) (plen : Nat) (i : Instr) (tag : Byte),
    s.AtTurn e eng req rest → eng.outMem.wf → plen ≤ s.cfg.maxInLen → 13 + plen ≤ maxTotalLen →
    (i, tag) ∈ [(Instr.encodeData seq plen, 0x00#8), (Instr.encodeAck seq plen, 0x01#8), (Instr.encodeSyn seq plen, 0x02#8)] →
    ∃ out, exec i s = .next (s.answered e eng rest out (.okEncode (13 + plen))) ∧
      out.readN 0 (13 + plen)
        = bytesBE 4 (13 + plen) ++ [tag] ++ bytesBE 8 seq.toNat ++ eng.inMem.readN 0 plen ∧
      beNat (out.readN 0 4) = 13 + plen ∧
      ∀ a, 13 + plen ≤ a → out.read a = eng.outMem.read a

/-- R70: TotalLenOverflow with the exact length, no byte of OUT written, exactly when plen > 4294967282. -/
def Obligations.EncodeOverflowsExactlyPastTheLargestPayload : Prop :=
  ∀ (s : State) (e : Nat) (eng : Engine) (req : Request) (rest : List Move) (seq : Seq) (plen : Nat) (i : Instr),
    s.AtTurn e eng req rest → plen ≤ s.cfg.maxInLen →
    i ∈ [Instr.encodeData seq plen, Instr.encodeAck seq plen, Instr.encodeSyn seq plen] →
    (4294967295 < 13 + plen →
      exec i s = .next (s.answered e eng rest eng.outMem (.errTotalLenOverflow (13 + plen)))) ∧
    ((∃ out n, exec i s = .next (s.answered e eng rest out (.errTotalLenOverflow n))) ↔ 4294967282 < plen)

/-- R74, R75: the empty payload and the boundary lengths, for every kind. -/
def Obligations.EncodeBoundaryLengths : Prop :=
  ∀ (s : State) (e : Nat) (eng : Engine) (req : Request) (rest : List Move) (seq : Seq) (k : Kind),
    s.AtTurn e eng req rest → eng.outMem.wf →
    (∃ out, exec (encodeOf k seq 0) s = .next (s.answered e eng rest out (.okEncode 13)) ∧
      out.readN 0 13 = [0x00#8, 0x00#8, 0x00#8, 0x0D#8] ++ [k.tag] ++ bytesBE 8 seq.toNat) ∧
    (4294967282 ≤ s.cfg.maxInLen →
      ∃ out, exec (encodeOf k seq 4294967282) s = .next (s.answered e eng rest out (.okEncode 4294967295)) ∧
      out.readN 0 4 = [0xFF#8, 0xFF#8, 0xFF#8, 0xFF#8]) ∧
    (4294967283 ≤ s.cfg.maxInLen → exec (encodeOf k seq 4294967283) s
      = .next (s.answered e eng rest eng.outMem (.errTotalLenOverflow 4294967296))) ∧
    (4294967296 ≤ s.cfg.maxInLen → exec (encodeOf k seq 4294967296) s
      = .next (s.answered e eng rest eng.outMem (.errTotalLenOverflow 4294967309))) ∧
    ∀ plen, plen ≤ s.cfg.maxInLen →
      ((∃ out n, exec (encodeOf k seq plen) s = .next (s.answered e eng rest out (.errTotalLenOverflow n))) ↔
        4294967282 < plen)

/-- From R68: ENCODE's pseudocode over IN and OUT does what its pure function says. -/
def Obligations.EncodeAgreesWithThePureFunction : Prop :=
  ∀ (s : State) (e : Nat) (eng : Engine) (req : Request) (rest : List Move) (seq : Seq) (plen : Nat) (k : Kind),
    s.AtTurn e eng req rest → eng.outMem.wf → plen ≤ s.cfg.maxInLen →
    match encodeSegment ⟨k, seq, eng.inMem.readN 0 plen⟩ with
    | .error err => exec (encodeOf k seq plen) s = .next (s.answered e eng rest eng.outMem err.response)
    | .ok frame =>
      ∃ out, exec (encodeOf k seq plen) s = .next (s.answered e eng rest out (.okEncode frame.length)) ∧
        out.readN 0 frame.length = frame ∧ ∀ a, frame.length ≤ a → out.read a = eng.outMem.read a

/-! ### DECODE -/

/-- R81: a buffer shorter than 4 bytes is TooShort, whatever IN holds. -/
def Obligations.DecodeRejectsShortBuffers : Prop :=
  ∀ (s : State) (e : Nat) (eng : Engine) (req : Request) (rest : List Move) (k : BitVec 2) (blen : Nat),
    s.AtTurn e eng req rest → blen ≤ s.cfg.maxInLen → blen < 4 →
    exec (.decode k blen) s = .next (s.answered e eng rest eng.outMem .errTooShort)

/-- R83 (total_len read as R82 says): total_len is the unsigned big-endian value of the first 4 bytes, and outside 13 to blen it is
InvalidTotalLen with both values exact. -/
def Obligations.DecodeRejectsInvalidTotalLen : Prop :=
  ∀ (s : State) (e : Nat) (eng : Engine) (req : Request) (rest : List Move) (k : BitVec 2) (blen : Nat),
    s.AtTurn e eng req rest → blen ≤ s.cfg.maxInLen → 4 ≤ blen →
    beNat (eng.inMem.readN 0 4) < 13 ∨ blen < beNat (eng.inMem.readN 0 4) →
    ∃ declared : BitVec 32, declared.toNat = beNat (eng.inMem.readN 0 4) ∧
      exec (.decode k blen) s = .next (s.answered e eng rest eng.outMem (.errInvalidTotalLen declared blen))

/-- R84: once the length checks pass, the type byte gives the kind, and any other byte is UnknownType. -/
def Obligations.DecodeMapsTheTypeByte : Prop :=
  ∀ (s : State) (e : Nat) (eng : Engine) (req : Request) (rest : List Move) (k : BitVec 2) (blen : Nat),
    s.AtTurn e eng req rest → blen ≤ s.cfg.maxInLen →
    13 ≤ beNat (eng.inMem.readN 0 4) → beNat (eng.inMem.readN 0 4) ≤ blen →
    (eng.inMem.read 4 = 0x00#8 →
      ∃ out q n, exec (.decode k blen) s = .next (s.answered e eng rest out (.okDecode .data q n))) ∧
    (eng.inMem.read 4 = 0x01#8 →
      ∃ out q n, exec (.decode k blen) s = .next (s.answered e eng rest out (.okDecode .ack q n))) ∧
    (eng.inMem.read 4 = 0x02#8 →
      ∃ out q n, exec (.decode k blen) s = .next (s.answered e eng rest out (.okDecode .syn q n))) ∧
    (3 ≤ (eng.inMem.read 4).toNat →
      exec (.decode k blen) s = .next (s.answered e eng rest eng.outMem (.errUnknownType (eng.inMem.read 4))))

/-- R85, R86 (the fields are those of R91): the sequence, the payload length and the payload DECODE returns. -/
def Obligations.DecodeReturnsTheSegment : Prop :=
  ∀ (s : State) (e : Nat) (eng : Engine) (req : Request) (rest : List Move) (k : BitVec 2) (blen : Nat) (kind : Kind),
    s.AtTurn e eng req rest → eng.outMem.wf → blen ≤ s.cfg.maxInLen →
    13 ≤ beNat (eng.inMem.readN 0 4) → beNat (eng.inMem.readN 0 4) ≤ blen → eng.inMem.read 4 = kind.tag →
    ∃ out q, q.toNat = beNat (eng.inMem.readN 5 8) ∧
      exec (.decode k blen) s
        = .next (s.answered e eng rest out (.okDecode kind q (beNat (eng.inMem.readN 0 4) - 13))) ∧
      out.readN 0 (beNat (eng.inMem.readN 0 4) - 13) = eng.inMem.readN 13 (beNat (eng.inMem.readN 0 4) - 13) ∧
      ∀ a, beNat (eng.inMem.readN 0 4) - 13 ≤ a → out.read a = eng.outMem.read a

/-- From R80: DECODE's pseudocode over IN and OUT does what its pure function says. -/
def Obligations.DecodeAgreesWithThePureFunction : Prop :=
  ∀ (s : State) (e : Nat) (eng : Engine) (req : Request) (rest : List Move) (k : BitVec 2) (blen : Nat),
    s.AtTurn e eng req rest → eng.outMem.wf → blen ≤ s.cfg.maxInLen →
    match decodeBuffer (eng.inMem.readN 0 blen) with
    | .error err => exec (.decode k blen) s = .next (s.answered e eng rest eng.outMem err.response)
    | .ok seg =>
      ∃ out, exec (.decode k blen) s
          = .next (s.answered e eng rest out (.okDecode seg.kind seg.sequence seg.payload.length)) ∧
        out.readN 0 seg.payload.length = seg.payload ∧
        ∀ a, seg.payload.length ≤ a → out.read a = eng.outMem.read a

/-- R87: an accepted buffer is decoded exactly as its first total_len bytes, and what stands after them is not read. -/
def Obligations.DecodeIgnoresTrailingBytes : Prop :=
  ∀ (s : State) (e : Nat) (eng : Engine) (req : Request) (rest : List Move) (k : BitVec 2) (blen : Nat)
    (kind : Kind) (q : Seq) (n : Nat) (out : Memory),
    s.AtTurn e eng req rest → exec (.decode k blen) s = .next (s.answered e eng rest out (.okDecode kind q n)) →
    13 + n = beNat (eng.inMem.readN 0 4) ∧ 13 + n ≤ blen ∧
    exec (.decode k (13 + n)) s = .next (s.answered e eng rest out (.okDecode kind q n)) ∧
    ∀ inMem' : Memory, inMem'.readN 0 (13 + n) = eng.inMem.readN 0 (13 + n) →
      exec (.decode k blen) (s.setEngine e { eng with inMem := inMem' })
        = .next ((s.setEngine e { eng with inMem := inMem' }).answered e { eng with inMem := inMem' } rest out
            (.okDecode kind q n))

/-- R88: a buffer of 4 to 12 bytes is always InvalidTotalLen. -/
def Obligations.DecodeOfFourToTwelveBytesIsInvalid : Prop :=
  ∀ (s : State) (e : Nat) (eng : Engine) (req : Request) (rest : List Move) (k : BitVec 2) (blen : Nat),
    s.AtTurn e eng req rest → blen ≤ s.cfg.maxInLen → 4 ≤ blen → blen ≤ 12 →
    ∃ declared : BitVec 32, declared.toNat = beNat (eng.inMem.readN 0 4) ∧
      exec (.decode k blen) s = .next (s.answered e eng rest eng.outMem (.errInvalidTotalLen declared blen))

/-! ### Wire words -/

/-- From R54, R80: a FRAME_HEADER word is what DECODE makes of a buffer with that header. That it is an instruction is the
model's choice (log 7). -/
def Obligations.HeaderWordIsDecoded : Prop :=
  ∀ (s : State) (e : Nat) (eng : Engine) (req : Request) (rest : List Move)
    (totalLen : BitVec 32) (tag : Byte) (seq : Seq),
    s.AtTurn e eng req rest → opBit req.cmd = true → eng.inMem.wf → eng.outMem.wf → req.len ≤ s.cfg.maxInLen →
    (req.len < 4 →
      exec (.frameHeader totalLen tag seq) s = .next (s.answered e eng rest eng.outMem .errTooShort)) ∧
    (4 ≤ req.len → totalLen.toNat < 13 ∨ req.len < totalLen.toNat →
      exec (.frameHeader totalLen tag seq) s
        = .next (s.answered e eng rest eng.outMem (.errInvalidTotalLen totalLen req.len))) ∧
    (13 ≤ totalLen.toNat → totalLen.toNat ≤ req.len → 3 ≤ tag.toNat →
      exec (.frameHeader totalLen tag seq) s
        = .next (s.answered e eng rest eng.outMem (.errUnknownType tag))) ∧
    (13 ≤ totalLen.toNat → totalLen.toNat ≤ req.len → ∀ kind : Kind, tag = kind.tag →
      ∃ out, exec (.frameHeader totalLen tag seq) s
          = .next (s.answered e eng rest out (.okDecode kind seq (totalLen.toNat - 13))) ∧
        out.readN 0 (totalLen.toNat - 13) = eng.inMem.readN 13 (totalLen.toNat - 13) ∧
        ∀ a, totalLen.toNat - 13 ≤ a → out.read a = eng.outMem.read a)

/-- From R57, R80, R84: TAG.DATA, TAG.ACK and TAG.SYN are what DECODE makes of a buffer with that type byte. That they are
instructions is the model's choice (log 7). -/
def Obligations.KindTagWordsAreDecoded : Prop :=
  ∀ (s : State) (e : Nat) (eng : Engine) (req : Request) (rest : List Move) (i : Instr) (kind : Kind),
    s.AtTurn e eng req rest → opBit req.cmd = true → eng.inMem.wf → eng.outMem.wf → req.len ≤ s.cfg.maxInLen →
    13 ≤ beNat (eng.inMem.readN 0 4) → beNat (eng.inMem.readN 0 4) ≤ req.len →
    (i, kind) ∈ [(Instr.tagData, Kind.data), (Instr.tagAck, Kind.ack), (Instr.tagSyn, Kind.syn)] →
    ∃ out q, q.toNat = beNat (eng.inMem.readN 5 8) ∧
      exec i s = .next (s.answered e eng rest out (.okDecode kind q (beNat (eng.inMem.readN 0 4) - 13))) ∧
      out.readN 0 (beNat (eng.inMem.readN 0 4) - 13) = eng.inMem.readN 13 (beNat (eng.inMem.readN 0 4) - 13) ∧
      ∀ a, beNat (eng.inMem.readN 0 4) - 13 ≤ a → out.read a = eng.outMem.read a

/-- From R58, R80, R84: a TAG.RESERVED word is UnknownType with its byte, and OUT is unchanged. That it is an instruction is
the model's choice (log 7). -/
def Obligations.ReservedTagWordIsUnknownType : Prop :=
  ∀ (s : State) (e : Nat) (eng : Engine) (req : Request) (rest : List Move) (tag : Byte),
    s.AtTurn e eng req rest → opBit req.cmd = true → eng.inMem.wf → req.len ≤ s.cfg.maxInLen →
    13 ≤ beNat (eng.inMem.readN 0 4) → beNat (eng.inMem.readN 0 4) ≤ req.len → 3 ≤ tag.toNat →
    exec (.tagReserved tag) s = .next (s.answered e eng rest eng.outMem (.errUnknownType tag))

/-- From R110: behind an invalid length every tag word reports the length, not the tag. That the tag words are instructions is
the model's choice (log 7). -/
def Obligations.TagWordsReportTheLengthFirst : Prop :=
  ∀ (s : State) (e : Nat) (eng : Engine) (req : Request) (rest : List Move) (tag : Byte) (i : Instr),
    s.AtTurn e eng req rest → opBit req.cmd = true → req.len ≤ s.cfg.maxInLen →
    i ∈ [Instr.tagData, Instr.tagAck, Instr.tagSyn, Instr.tagReserved tag] →
    (req.len < 4 → exec i s = .next (s.answered e eng rest eng.outMem .errTooShort)) ∧
    (4 ≤ req.len → beNat (eng.inMem.readN 0 4) < 13 ∨ req.len < beNat (eng.inMem.readN 0 4) →
      ∃ declared : BitVec 32, declared.toNat = beNat (eng.inMem.readN 0 4) ∧
        exec i s = .next (s.answered e eng rest eng.outMem (.errInvalidTotalLen declared req.len)))

/-- The model's choice (log 7), from R59: no command but DECODE reads a wire word, so at the turn of an ENCODE request a wire
word is a step that does not exist. -/
def Obligations.WireWordsNeedADecodeRequest : Prop :=
  ∀ (s : State) (e : Nat) (eng : Engine) (req : Request) (rest : List Move) (totalLen : BitVec 32) (tag : Byte) (seq : Seq)
    (i : Instr),
    s.AtTurn e eng req rest → opBit req.cmd = false →
    i ∈ [Instr.frameHeader totalLen tag seq, Instr.tagData, Instr.tagAck, Instr.tagSyn, Instr.tagReserved tag] →
    exec i s = .fault .wireWordNotRead

/-! ### The laws of the codec -/

/-- R94: the round-trip law. -/
def Obligations.DecodeOfEncodeIsTheSegment : Prop :=
  ∀ seg : Segment, seg.payload.length ≤ 4294967282 →
    ∃ frame, encodeSegment seg = .ok frame ∧ decodeBuffer frame = .ok seg

/-- R95: length-field correctness. -/
def Obligations.EncodedLengthFieldIsTheFrameLength : Prop :=
  ∀ (seg : Segment) (frame : List Byte), encodeSegment seg = .ok frame → beNat (frame.take 4) = frame.length

/-- R96: under-length rejection, for every such buffer and no other. -/
def Obligations.TooShortExactlyBelowFourBytes : Prop :=
  ∀ b : List Byte, decodeBuffer b = .error .tooShort ↔ b.length < 4

/-- R97: inconsistent-length rejection. -/
def Obligations.InconsistentLengthIsRejected : Prop :=
  ∀ b : List Byte, 4 ≤ b.length → b.length < beNat (b.take 4) ∨ beNat (b.take 4) < 13 →
    ∃ declared : BitVec 32, declared.toNat = beNat (b.take 4) ∧
      decodeBuffer b = .error (.invalidTotalLen declared b.length)

/-- R98: unknown-tag rejection, and the source's instance. -/
def Obligations.UnknownTagIsRejected : Prop :=
  (∀ b : List Byte, 13 ≤ b.length → 13 ≤ beNat (b.take 4) → beNat (b.take 4) ≤ b.length → 3 ≤ (b.getD 4 0).toNat →
    decodeBuffer b = .error (.unknownType (b.getD 4 0))) ∧
  ∀ q : List Byte, q.length = 8 →
    decodeBuffer ([0x00#8, 0x00#8, 0x00#8, 0x0D#8, 0x03#8] ++ q) = .error (.unknownType 0x03#8)

/-- R99: the re-encode law. -/
def Obligations.EncodeOfDecodeIsTheFramePart : Prop :=
  ∀ (b : List Byte) (seg : Segment), decodeBuffer b = .ok seg →
    encodeSegment seg = .ok (b.take (beNat (b.take 4)))

/-- R100: ENCODE is injective on the segments it encodes. -/
def Obligations.EncodeIsInjective : Prop :=
  ∀ (x y : Segment) (frame : List Byte), encodeSegment x = .ok frame → encodeSegment y = .ok frame → x = y

/-! ### Frames, determinism, independence -/

/-- R44: an engine writes only its own OUT, inside the range its response covers, and its own response. This holds of every
instruction; for a command that raised an error all of OUT is unchanged. -/
def Obligations.EveryInstructionWritesOnlyItsOwnResult : Prop :=
  ∀ (i : Instr) (s s' : State), exec i s = .next s' →
    ∃ (e : Nat) (eng : Engine) (req : Request) (rest : List Move) (out : Memory) (r : Response),
      s.AtTurn e eng req rest ∧ s'.engines[e]? = some ⟨.done r, eng.inMem, out⟩ ∧
      (∀ a, r.covered ≤ a → out.read a = eng.outMem.read a) ∧ (r.ok = false → out = eng.outMem) ∧
      (∀ e', e' ≠ e → s'.engines[e']? = s.engines[e']?) ∧ s'.engines.length = s.engines.length ∧
      s'.cfg = s.cfg ∧ s'.delivered = s.delivered ∧ s'.agenda = rest

/-- From R14, R101 to R105: which responses an instruction can give. -/
def Obligations.CommandsRaiseOnlyTheirOwnErrors : Prop :=
  ∀ (i : Instr) (s s' : State) (e : Nat) (eng : Engine) (req : Request) (rest : List Move),
    s.AtTurn e eng req rest → exec i s = .next s' →
    ∃ eng' r, s'.engines[e]? = some eng' ∧ eng'.phase = .done r ∧
      match i with
      | .encodeData _ plen | .encodeAck _ plen | .encodeSyn _ plen =>
        r = .okEncode (13 + plen) ∨ r = .errTotalLenOverflow (13 + plen)
      | .decode _ blen =>
        (∃ k q n, r = .okDecode k q n) ∨ r = .errTooShort ∨ (∃ d, r = .errInvalidTotalLen d blen) ∨
          ∃ t, r = .errUnknownType t ∧ 3 ≤ t.toNat
      | .reservedEncodeKind3 _ _ => False
      | .frameHeader _ _ _ | .tagData | .tagAck | .tagSyn | .tagReserved _ =>
        (∃ k q n, r = .okDecode k q n) ∨ r = .errTooShort ∨ (∃ d, r = .errInvalidTotalLen d req.len) ∨
          ∃ t, r = .errUnknownType t ∧ 3 ≤ t.toNat

/-- R15, R93: the response and the OUT bytes it covers depend only on the command and the input bytes it names: not on the
engine, the rest of IN, OUT, the other engines, or what ran before. -/
def Obligations.AnswersDependOnTheRequestAndItsBytesOnly : Prop :=
  ∀ (s₁ s₂ : State) (e₁ e₂ : Nat) (g₁ g₂ : Engine) (q₁ q₂ : Request) (rest₁ rest₂ : List Move) (i : Instr) (n : Nat)
    (seq : Seq) (k : BitVec 2) (out₁ : Memory) (r : Response),
    s₁.AtTurn e₁ g₁ q₁ rest₁ → s₂.AtTurn e₂ g₂ q₂ rest₂ → g₁.outMem.wf → g₂.outMem.wf →
    n ≤ s₂.cfg.maxInLen → g₁.inMem.readN 0 n = g₂.inMem.readN 0 n →
    i ∈ [Instr.encodeData seq n, Instr.encodeAck seq n, Instr.encodeSyn seq n, Instr.decode k n] →
    exec i s₁ = .next (s₁.answered e₁ g₁ rest₁ out₁ r) →
    ∃ out₂, exec i s₂ = .next (s₂.answered e₂ g₂ rest₂ out₂ r) ∧
      out₂.readN 0 r.covered = out₁.readN 0 r.covered

/-- R41: the same request on the same IN gives the same response and the same OUT bytes the second time. -/
def Obligations.CommandsAreIdempotent : Prop :=
  ∀ (s : State) (e : Nat) (eng : Engine) (req : Request) (rest : List Move) (i : Instr) (out : Memory) (r : Response),
    s.AtTurn e eng req rest → eng.outMem.wf → exec i s = .next (s.answered e eng rest out r) →
    ∃ out', exec i (s.setEngine e { eng with outMem := out })
        = .next ((s.setEngine e { eng with outMem := out }).answered e { eng with outMem := out } rest out' r) ∧
      ∀ a, out'.read a = out.read a

/-- From R47: the execute steps of two engines commute. -/
def Obligations.ExecuteStepsOfTwoEnginesCommute : Prop :=
  ∀ (s : State) (a b : Nat) (ga gb : Engine) (qa qb : Request) (rest : List Move),
    a ≠ b → s.agenda = .execute a :: .execute b :: rest →
    s.engines[a]? = some ga → ga.phase = .busy qa → qa.refusal? s.cfg = none →
    s.engines[b]? = some gb → gb.phase = .busy qb → qb.refusal? s.cfg = none →
    ∃ s', Sys2Proof.core.run 2 s = .next s' ∧
      Sys2Proof.core.run 2 (s.setAgenda (.execute b :: .execute a :: rest)) = .next s'

/-! ### Admission and refusal -/

/-- R22: the execute step of an admitted request is always enabled and ends in a response. -/
def Obligations.AdmittedRequestsEndInAResponse : Prop :=
  ∀ (s : State) (e : Nat) (eng : Engine) (req : Request) (rest : List Move),
    s.AtTurn e eng req rest → req.refusal? s.cfg = none →
    ∃ out r, step s = .next (s.answered e eng rest out r)

/-- From R66, R117: which requests are refused, at the issue and at the execute step, and that a program line with more bytes
than IN holds is refused (vector E-12; program P3 without its premise). That the issue is refused at once is the model's choice
(log 10), and so is the number of steps a line takes (log 12). -/
def Obligations.RefusedRequestsNeverAnswer : Prop :=
  (∀ (s : State) (e : Nat) (eng : Engine) (req : Request) (rest : List Move),
    s.engines[e]? = some eng → req.cmd = 0b110#3 ∨ s.cfg.maxInLen < req.len →
    ∃ why, (why = if req.cmd = 0b110#3 then Refusal.reservedKindCode else Refusal.requestTooLong) ∧
      (s.agenda = .issue e req :: rest → eng.phase = .idle → step s = .refused why) ∧
      (s.AtTurn e eng req rest → step s = .refused why)) ∧
  ∀ (s : State) (l : HostLine) (ls : List HostLine) (order : List Nat) (rest : List Move) (eng : Engine) (bytes : List Byte),
    s.agenda = .lines (l :: ls) order :: rest → s.engines[l.engine]? = some eng → eng.phase = .idle →
    l.bytes.eval (previousOut s l.engine) = some bytes → s.cfg.maxInLen < bytes.length →
    (∀ l' ∈ ls, l'.bytes.eval (previousOut s l'.engine) ≠ none) →
    Sys2Proof.core.run 2 s = .refused .requestTooLong

/-- R117 (a), the conclusion being the stop: the reserved ENCODE word is refused in every state. -/
def Obligations.ReservedKindWordIsRefused : Prop :=
  ∀ (s : State) (seq : Seq) (plen : Nat), exec (.reservedEncodeKind3 seq plen) s = .refused .reservedKindCode

/-! ### Responses -/

/-- From R17, R64: the STATUS code of each response form, the codes never produced, and the fields each form has, and no
others. Which command raises which error is `CommandsRaiseOnlyTheirOwnErrors`. -/
def Obligations.ResponsesHaveTheirStatusAndFieldsOnly : Prop :=
  (∀ n, (Response.okEncode n).status = 0#3) ∧ (∀ k q n, (Response.okDecode k q n).status = 0#3) ∧
  CodecError.tooShort.response.status = 1#3 ∧
  (∀ d a, (CodecError.invalidTotalLen d a).response.status = 2#3) ∧
  (∀ t, (CodecError.unknownType t).response.status = 3#3) ∧
  (∀ n, (CodecError.totalLenOverflow n).response.status = 4#3) ∧
  (∀ r : Response, r.status ≠ 5#3 ∧ r.status ≠ 6#3 ∧ r.status ≠ 7#3) ∧
  (∀ n f, (Response.okEncode n).field? f ≠ none ↔ f ∈ [FieldName.status, .olen]) ∧
  (∀ k q n f, (Response.okDecode k q n).field? f ≠ none ↔ f ∈ [FieldName.status, .kind, .seq, .plen]) ∧
  (∀ f, Response.errTooShort.field? f ≠ none ↔ f = FieldName.status) ∧
  (∀ d a f, (Response.errInvalidTotalLen d a).field? f ≠ none ↔ f ∈ [FieldName.status, .declared, .actual]) ∧
  (∀ t f, (Response.errUnknownType t).field? f ≠ none ↔ f ∈ [FieldName.status, .tag]) ∧
  ∀ n f, (Response.errTotalLenOverflow n).field? f ≠ none ↔ f ∈ [FieldName.status, .computed]

/-- From R17, R18: every field of every response an instruction gives fits its width in a binary binding, and the response is
within the bounds of R18, R58 and R101 to R104. It rests on MAX_IN_LEN fitting LEN_W bits, which the model deduces
(log 1). -/
def Obligations.ResponseFieldsFitTheirWidths : Prop :=
  ∀ (i : Instr) (s s' : State) (e : Nat) (eng eng' : Engine) (req : Request) (rest : List Move) (r : Response),
    s.cfg.wf → s.AtTurn e eng req rest → exec i s = .next s' →
    s'.engines[e]? = some eng' → eng'.phase = .done r →
    r.wf s.cfg ∧ r.covered ≤ s.cfg.maxOutLen ∧ ∀ f v, r.field? f = some v → v < 2 ^ f.width s.cfg.lenW

/-- From R92, R106, R107: after an error and its take the engine is as before the request but for being IDLE, and nothing
else but the delivered error has changed. -/
def Obligations.ErrorsLeaveNoTrace : Prop :=
  ∀ (i : Instr) (s s' : State) (e : Nat) (eng eng' : Engine) (req : Request) (rest : List Move) (r : Response),
    s.AtTurn e eng req (.take e :: rest) → exec i s = .next s' →
    s'.engines[e]? = some eng' → eng'.phase = .done r → r.ok = false →
    step s' = .next { s with
      engines := s.engines.set e { eng with phase := .idle }
      agenda := rest
      delivered := s.delivered ++ [⟨e, r, []⟩] }

/-! ### The engine's transitions and the host's moves -/

/-- From R21: host issue. An admitted request makes an IDLE engine BUSY and changes nothing else; an engine that is not IDLE
has no such step (as a fault: log 6). -/
def Obligations.IssueMakesAnIdleEngineBusy : Prop :=
  ∀ (s : State) (e : Nat) (eng : Engine) (req : Request) (rest : List Move),
    s.agenda = .issue e req :: rest → s.engines[e]? = some eng →
    (eng.phase = .idle → req.refusal? s.cfg = none →
      step s = .next { s with engines := s.engines.set e { eng with phase := .busy req }, agenda := rest }) ∧
    (eng.phase ≠ .idle → step s = .fault .issueNotIdle)

/-- From R21, R135: host take. A DONE engine becomes IDLE, its response and the OUT bytes it covers are delivered after the
engine's earlier ones, and nothing else changes; an engine that is not DONE has no such step (as a fault: log 6). -/
def Obligations.TakeDeliversTheResponse : Prop :=
  ∀ (s : State) (e : Nat) (eng : Engine) (rest : List Move),
    s.agenda = .take e :: rest → s.engines[e]? = some eng →
    (∀ r, eng.phase = .done r → ∃ s', step s = .next s' ∧
      s'.engines = s.engines.set e { eng with phase := .idle } ∧ s'.agenda = rest ∧ s'.cfg = s.cfg ∧
      s'.observation e = s.observation e ++ [(r, eng.outMem.readN 0 r.covered)] ∧
      ∀ e', e' ≠ e → s'.observation e' = s.observation e') ∧
    ((∀ r, eng.phase ≠ .done r) → step s = .fault .takeNotDone)

/-- From R29, R130: a host write to IN. While the engine is BUSY the host has no such move (as a fault: log 6); otherwise
exactly the named bytes of IN change. -/
def Obligations.HostWriteChangesExactlyItsBytesOfIn : Prop :=
  ∀ (s : State) (e off : Nat) (bytes : List Byte) (eng : Engine) (rest : List Move),
    s.agenda = .write e off bytes :: rest → s.engines[e]? = some eng →
    (∀ r, eng.phase = .busy r → step s = .fault .writeWhileBusy) ∧
    ((∀ r, eng.phase ≠ .busy r) → s.cfg.maxInLen < off + bytes.length → step s = .fault .writeOutsideIn) ∧
    ((∀ r, eng.phase ≠ .busy r) → off + bytes.length ≤ s.cfg.maxInLen → eng.inMem.wf →
      ∃ m : Memory,
        step s = .next { s with engines := s.engines.set e { eng with inMem := m }, agenda := rest } ∧
        m.readN off bytes.length = bytes ∧
        ∀ a, a < off ∨ off + bytes.length ≤ a → m.read a = eng.inMem.read a)

/-- From R66, R117 (b), R131: how program lines issued together are assembled. Every line that IN can hold is written from
offset 0, and every line is issued with CMD, SEQ and the number of its bytes, before any engine executes; then the engines
execute in the given order and the host takes each response. A line whose bytes cannot be read stops the program (as a fault:
log 6). `OUT` is what the engine's previous response covers, if it was a success and the engine is not BUSY. The model's
choices: the moves stand in the agenda (log 4); DECODE has CMD 001 and SEQ zero (log 9); when OUT is read, in which order the
takes come, and that a line longer than IN is its issue alone (log 12). -/
def Obligations.ProgramLineIsAssembled : Prop :=
  (∀ (s : State) (ls : List HostLine) (order : List Nat) (rest : List Move), s.agenda = .lines ls order :: rest →
    (∀ bss : List (List Byte), ls.map (fun l => l.bytes.eval (previousOut s l.engine)) = bss.map some →
      step s = .next (s.setAgenda (
        (ls.zip bss).flatMap (fun p =>
          (if p.2.length ≤ s.cfg.maxInLen then [Move.write p.1.engine 0 p.2] else []) ++
          [Move.issue p.1.engine (match p.1.cmd with
            | .encode .data seq => ⟨0b000#3, seq, p.2.length⟩
            | .encode .ack seq => ⟨0b010#3, seq, p.2.length⟩
            | .encode .syn seq => ⟨0b100#3, seq, p.2.length⟩
            | .decode => ⟨0b001#3, 0, p.2.length⟩)]) ++
        order.map Move.execute ++ ls.map (fun l => Move.take l.engine) ++ rest))) ∧
    ((∃ l ∈ ls, l.bytes.eval (previousOut s l.engine) = none) → step s = .fault .outNotReadable)) ∧
  (∀ (s : State) (e : Nat) (eng : Engine), s.engines[e]? = some eng →
    (∀ r b, (∀ q, eng.phase ≠ .busy q) → (s.observation e).getLast? = some (r, b) → r.ok = true →
      previousOut s e = some (eng.outMem.readN 0 r.covered)) ∧
    ((∃ q, eng.phase = .busy q) ∨ (∀ r b, (s.observation e).getLast? = some (r, b) → r.ok = false) →
      previousOut s e = none)) ∧
  ∀ (prev : Option (List Byte)) (bytes : List Byte) (n : Nat) (b : Byte),
    HostBytes.out.eval prev = prev ∧
    (HostBytes.cat (.lit bytes) (.rep n b)).eval prev = some (bytes ++ List.replicate n b) ∧
    (HostBytes.cat .out (.lit bytes)).eval prev = prev.map (· ++ bytes)

/-- From R21 ("No other transition exists") and R122: how an engine's phase can change in one step. -/
def Obligations.PhasesChangeOnlyAlongTheThreeTransitions : Prop :=
  ∀ (s s' : State) (e : Nat) (g g' : Engine),
    step s = .next s' → s.engines[e]? = some g → s'.engines[e]? = some g' →
    g'.phase = g.phase ∨ (g.phase = .idle ∧ ∃ q, g'.phase = .busy q) ∨
    ((∃ q, g.phase = .busy q) ∧ ∃ r, g'.phase = .done r) ∨ ((∃ r, g.phase = .done r) ∧ g'.phase = .idle) ∨
    ((∃ cs rest, s.agenda = .reset cs :: rest) ∧ g'.phase = .idle)

/-- From R12, R29, R44, R130: in one step IN of an engine changes only by a host write while the engine is not BUSY, OUT only
by that engine's own execute step, and both by reset. -/
def Obligations.BytesChangeOnlyByTheirOwner : Prop :=
  ∀ (s s' : State) (e : Nat) (g g' : Engine),
    step s = .next s' → s.engines[e]? = some g → s'.engines[e]? = some g' →
    (∃ cs rest, s.agenda = .reset cs :: rest) ∨
    ((g'.inMem = g.inMem ∨ ((∃ off bytes rest, s.agenda = .write e off bytes :: rest) ∧ ∀ q, g.phase ≠ .busy q)) ∧
      (g'.outMem = g.outMem ∨ ((∃ q, g.phase = .busy q) ∧ ∃ r, g'.phase = .done r ∧ r.ok = true)))

/-- From R120, R135: with no move to come and no BUSY engine the block does nothing, however many steps it takes; so a
finished run stays as it is. -/
def Obligations.IdleBlockDoesNothing : Prop :=
  ∀ s : State, (s.agenda = [] → (∀ g ∈ s.engines, ∀ q, g.phase ≠ .busy q) → ∀ k, Sys2Proof.core.run k s = .next s) ∧
    (s.finished → ∀ k, Sys2Proof.core.run k s = .next s)

/-- From R134 (a BUSY engine eventually executes): with no host move to come, as many steps as there are BUSY engines leave
none BUSY. That with an empty agenda a step executes the lowest-numbered BUSY engine is the model's choice (log 4). -/
def Obligations.EveryBusyEngineExecutes : Prop :=
  ∀ s : State, s.Inv → s.agenda = [] →
    ∃ s', Sys2Proof.core.run s.busyCount s = .next s' ∧ s'.agenda = [] ∧ s'.engines.length = s.engines.length ∧
      ∀ g ∈ s'.engines, ∀ q, g.phase ≠ .busy q

/-! ### Reset -/

/-- R122 for the state the machine starts in; its parameters are the model's choice and appear only as `numEngines`
(log 1). -/
def Obligations.EveryEngineIsIdleAfterReset : Prop :=
  State.reset.engines.length = State.reset.cfg.numEngines ∧ 1 ≤ State.reset.cfg.numEngines ∧
  (∀ g ∈ State.reset.engines, g.phase = .idle) ∧ State.reset.delivered = []

/-- From R122, R123: a reset at any time makes every engine IDLE; requests in flight and responses not taken are delivered by
nothing it leaves. That the deliveries of before and the moves to come are kept is the model's deduction (log 16). -/
def Obligations.ResetMakesEveryEngineIdle : Prop :=
  ∀ (s : State) (contents : List Contents) (rest : List Move), s.agenda = .reset contents :: rest →
    ∃ s', step s = .next s' ∧ s'.engines.length = s.engines.length ∧ (∀ g ∈ s'.engines, g.phase = .idle) ∧
      s'.delivered = s.delivered ∧ s'.agenda = rest ∧ s'.cfg = s.cfg

/-- From R124: every content of IN and OUT of every engine, all at once, is a content a reset can leave: the reset that carries
`want` leaves in engine e the bytes that `want` names for it. That the reset move carries the contents, and that an engine it
carries none for keeps its bytes, is the model's choice (log 3). -/
def Obligations.ResetCanLeaveAnyContents : Prop :=
  ∀ (s : State) (rest : List Move) (want : List (List Byte × List Byte)),
    (∀ w ∈ want, w.1.length ≤ s.cfg.maxInLen ∧ w.2.length ≤ s.cfg.maxOutLen) →
    ∃ s', step (s.setAgenda (.reset (want.map contentsOf) :: rest)) = .next s' ∧
      s'.engines.length = s.engines.length ∧
      (∀ e w, e < s.engines.length → want[e]? = some w → ∃ g, s'.engines[e]? = some g ∧ g.phase = .idle ∧
        g.inMem.readN 0 w.1.length = w.1 ∧ g.outMem.readN 0 w.2.length = w.2) ∧
      ∀ e g, want.length ≤ e → s.engines[e]? = some g → s'.engines[e]? = some { g with phase := .idle }

/-! ### Invariants -/

/-- The invariant holds after reset. -/
def Obligations.TheInvariantHoldsAtReset : Prop := State.reset.Inv ∧ State.reset.FramesValid

/-- Every step keeps the invariant: parameters and number of engines (R2, R118), every space in canonical form and inside its
capacity (R29), only admitted requests BUSY (R117), every response within its bounds (R18, R56, R58, R86). -/
def Obligations.StepKeepsTheInvariant : Prop :=
  ∀ s s' : State, s.Inv → step s = .next s' → s'.Inv

/-- From R56, R79, R95: every step keeps it that each OK_ENCODE response, waiting or delivered, covers a frame whose length
field is its length and which DECODE accepts. -/
def Obligations.StepKeepsEveryEncodedFrameValid : Prop :=
  ∀ s s' : State, s.Inv → s.FramesValid → step s = .next s' → s'.FramesValid

/-- From R4, R29 (a space is its bytes): two canonical spaces that read the same everywhere are the same data. -/
def Obligations.CanonicalSpacesWithEqualBytesAreEqual : Prop :=
  ∀ m m' : Memory, m.wf → m'.wf → (∀ a, m.read a = m'.read a) → m = m'

/-! ### A whole program -/

/-- From R66, R94, R135 (program P1 of spec/95_test_vectors.md, for every segment and every start): the two lines "ENCODE kind,
seq, bytes" and "DECODE OUT" on an IDLE engine deliver the frame and then the segment. That a line takes five steps and its moves
stand in the agenda is the model's choice (log 4, log 12). -/
def Obligations.EncodeThenDecodeProgramReturnsTheSegment : Prop :=
  ∀ (s : State) (e : Nat) (eng : Engine) (kind : Kind) (seq : Seq) (bytes : List Byte) (rest : List Move),
    s.Inv → s.engines[e]? = some eng → eng.phase = .idle → 13 + bytes.length ≤ s.cfg.maxInLen →
    bytes.length ≤ maxPayloadLen →
    s.agenda = .lines [⟨e, .encode kind seq, .lit bytes⟩] [e] :: .lines [⟨e, .decode, .out⟩] [e] :: rest →
    ∃ s' frame, Sys2Proof.core.run 10 s = .next s' ∧ s'.agenda = rest ∧
      encodeSegment ⟨kind, seq, bytes⟩ = .ok frame ∧
      s'.observation e = s.observation e ++
        [(.okEncode frame.length, frame), (.okDecode kind seq bytes.length, bytes)]
end

