-- ==== Sys2Proof/Laws/Memory.lean ====
section
/-! SUPPORT. Byte spaces: read after write, and every operation keeps the canonical form and the capacity. -/

namespace Sys2Proof.Machine

/-! ### Lists of cells -/

theorem cellAt_of_below (cs : List Host.Cell) (a : Nat) (h : ∀ c ∈ cs, a < c.1) : cellAt cs a = unlistedByte := by
  induction cs with
  | nil => rfl
  | cons c cs ih =>
    have hc : a ≠ c.1 := (h c (by simp)).ne
    simp only [cellAt, if_neg hc]
    exact ih fun d hd => h d (by simp [hd])

theorem cellAt_putCell_other (cs : List Host.Cell) (a b : Nat) (v : Byte) (h : b ≠ a) :
    cellAt (putCell cs a v) b = cellAt cs b := by
  induction cs with
  | nil => unfold putCell; split <;> simp [cellAt, h]
  | cons c cs ih =>
    unfold putCell
    split
    · split <;> simp [cellAt, h]
    · split
      · rename_i hac
        split <;> simp [cellAt, h, ← hac]
      · simp only [cellAt, ih]

theorem cellAt_putCell_same (cs : List Host.Cell) (a : Nat) (v : Byte)
    (h : cs.Pairwise (fun c d => c.1 < d.1)) : cellAt (putCell cs a v) a = v := by
  induction cs with
  | nil => unfold putCell; split <;> simp_all [cellAt]
  | cons c cs ih =>
    obtain ⟨hc, hcs⟩ := List.pairwise_cons.mp h
    unfold putCell
    split
    · rename_i hlt
      split
      · rename_i hv
        rw [hv]
        refine cellAt_of_below _ _ fun d hd => ?_
        rcases List.mem_cons.mp hd with rfl | hd
        · exact hlt
        · exact hlt.trans (hc d hd)
      · simp [cellAt]
    · split
      · rename_i hac
        split
        · rename_i hv
          rw [hv]
          exact cellAt_of_below _ _ fun d hd => hac ▸ hc d hd
        · simp [cellAt]
      · rename_i hac
        simp only [cellAt, if_neg hac]
        exact ih hcs

theorem mem_putCell {cs : List Host.Cell} {a : Nat} {v : Byte} {c : Host.Cell} (h : c ∈ putCell cs a v) :
    c ∈ cs ∨ c = (a, v) ∧ v ≠ unlistedByte := by
  induction cs with
  | nil => unfold putCell at h; split at h <;> simp_all
  | cons d cs ih =>
    unfold putCell at h
    split at h
    · split at h
      · exact .inl h
      · rcases List.mem_cons.mp h with rfl | h
        · exact .inr ⟨rfl, by assumption⟩
        · exact .inl h
    · split at h
      · split at h
        · exact .inl (List.mem_cons_of_mem _ h)
        · rcases List.mem_cons.mp h with rfl | h
          · exact .inr ⟨rfl, by assumption⟩
          · exact .inl (List.mem_cons_of_mem _ h)
      · rcases List.mem_cons.mp h with rfl | h
        · exact .inl (by simp)
        · rcases ih h with h | h
          · exact .inl (List.mem_cons_of_mem _ h)
          · exact .inr h

theorem pairwise_putCell (cs : List Host.Cell) (a : Nat) (v : Byte) (h : cs.Pairwise (fun c d => c.1 < d.1)) :
    (putCell cs a v).Pairwise (fun c d => c.1 < d.1) := by
  induction cs with
  | nil => unfold putCell; split <;> simp
  | cons c cs ih =>
    obtain ⟨hc, hcs⟩ := List.pairwise_cons.mp h
    unfold putCell
    split
    · rename_i hlt
      split
      · exact h
      · refine List.pairwise_cons.mpr ⟨fun d hd => ?_, h⟩
        rcases List.mem_cons.mp hd with rfl | hd
        · exact hlt
        · exact hlt.trans (hc d hd)
    · split
      · rename_i hac
        split
        · exact hcs
        · exact List.pairwise_cons.mpr ⟨fun d hd => hac ▸ hc d hd, hcs⟩
      · rename_i hlt hac
        refine List.pairwise_cons.mpr ⟨fun d hd => ?_, ih hcs⟩
        rcases mem_putCell hd with hd | ⟨rfl, -⟩
        · exact hc d hd
        · show c.1 < a
          omega

/-! ### Read after write -/

/-- Reading the byte just written. -/
theorem Memory.read_write_same (m : Memory) (a : Nat) (v : Byte) (h : m.wf) : (m.write a v).read a = v :=
  cellAt_putCell_same _ _ _ h.1

/-- A write leaves every other byte alone. -/
theorem Memory.read_write_other (m : Memory) (a b : Nat) (v : Byte) (h : b ≠ a) : (m.write a v).read b = m.read b :=
  cellAt_putCell_other _ _ _ _ h

/-- A block write leaves the bytes outside the block alone. -/
theorem Memory.read_writeN_outside (bytes : List Byte) (m : Memory) (a b : Nat)
    (h : b < a ∨ a + bytes.length ≤ b) : (m.writeN a bytes).read b = m.read b := by
  induction bytes generalizing m a with
  | nil => rfl
  | cons v vs ih =>
    simp only [List.length_cons] at h
    rw [Memory.writeN, ih _ _ (by omega), Memory.read_write_other _ _ _ _ (by omega)]

/-! ### The canonical form -/

/-- A write keeps the canonical form. -/
theorem Memory.wf_write {m : Memory} (h : m.wf) (a : Nat) (v : Byte) : (m.write a v).wf := by
  refine ⟨pairwise_putCell _ _ _ h.1, fun c hc => ?_⟩
  rcases mem_putCell hc with hc | ⟨rfl, hv⟩
  · exact h.2 c hc
  · exact hv

/-- A block write keeps the canonical form. -/
theorem Memory.wf_writeN {m : Memory} (h : m.wf) (a : Nat) (bytes : List Byte) : (m.writeN a bytes).wf := by
  induction bytes generalizing m a with
  | nil => exact h
  | cons v vs ih => exact ih (Memory.wf_write h a v) (a + 1)

/-- A space built from a list of cells is in canonical form. -/
theorem Memory.wf_ofCells (cap : Nat) (cs : List Host.Cell) : (Memory.ofCells cap cs).wf := by
  induction cs with
  | nil => exact ⟨List.Pairwise.nil, by simp [Memory.ofCells]⟩
  | cons c cs ih =>
    unfold Memory.ofCells
    split
    · exact Memory.wf_write ih _ _
    · exact ih

/-- A write below the capacity keeps the space inside it. -/
theorem Memory.within_write {m : Memory} {cap : Nat} (h : m.within cap) {a : Nat} (ha : a < cap) (v : Byte) :
    (m.write a v).within cap := by
  intro c hc
  rcases mem_putCell hc with hc | ⟨rfl, -⟩
  · exact h c hc
  · exact ha

/-- A block write below the capacity keeps the space inside it. -/
theorem Memory.within_writeN {m : Memory} {cap : Nat} (h : m.within cap) {a : Nat} (bytes : List Byte)
    (ha : a + bytes.length ≤ cap) : (m.writeN a bytes).within cap := by
  induction bytes generalizing m a with
  | nil => exact h
  | cons v vs ih =>
    simp only [List.length_cons] at ha
    exact ih (Memory.within_write h (by omega) v) (by omega)

/-- A space built from a list of cells is inside its capacity. -/
theorem Memory.within_ofCells (cap : Nat) (cs : List Host.Cell) : (Memory.ofCells cap cs).within cap := by
  induction cs with
  | nil => simp [Memory.ofCells, Memory.within]
  | cons c cs ih =>
    unfold Memory.ofCells
    split
    · exact Memory.within_write ih (by assumption) _
    · exact ih

/-! ### Block reads -/

@[simp] theorem Memory.length_readN (m : Memory) (a n : Nat) : (m.readN a n).length = n := by
  induction n generalizing a with
  | zero => rfl
  | succ n ih => simp [Memory.readN, ih]

/-- Block reads of spaces that agree on the block are equal. -/
theorem Memory.readN_congr {m m' : Memory} {a n : Nat} (h : ∀ b, a ≤ b → b < a + n → m.read b = m'.read b) :
    m.readN a n = m'.readN a n := by
  induction n generalizing a with
  | zero => rfl
  | succ n ih =>
    simp only [Memory.readN]
    rw [h a (by omega) (by omega), ih fun b h1 h2 => h b (by omega) (by omega)]

/-- A block read splits. -/
theorem Memory.readN_add (m : Memory) (a n k : Nat) : m.readN a (n + k) = m.readN a n ++ m.readN (a + n) k := by
  induction n generalizing a with
  | zero => simp [Memory.readN]
  | succ n ih =>
    rw [Nat.succ_add, Memory.readN, Memory.readN, ih, List.cons_append]
    congr 3
    omega

/-- A block read outside a block write. -/
theorem Memory.readN_writeN_outside (m : Memory) (bytes : List Byte) (a b n : Nat)
    (h : b + n ≤ a ∨ a + bytes.length ≤ b) : (m.writeN a bytes).readN b n = m.readN b n :=
  Memory.readN_congr fun c h1 h2 => Memory.read_writeN_outside bytes m a c (by omega)

/-- Reading a block just written gives the bytes written. -/
theorem Memory.readN_writeN_same (bytes : List Byte) (m : Memory) (a : Nat) (h : m.wf) :
    (m.writeN a bytes).readN a bytes.length = bytes := by
  induction bytes generalizing m a with
  | nil => rfl
  | cons v vs ih =>
    simp only [List.length_cons, Memory.readN, Memory.writeN]
    rw [ih _ _ (Memory.wf_write h a v), Memory.read_writeN_outside _ _ _ _ (by omega), Memory.read_write_same _ _ _ h]

end Sys2Proof.Machine
end

