-- ==== Sys2Proof/Laws/State.lean ====
section
/-! SUPPORT. One lemma per field per update of the state, and the facts about whose turn it is. -/

namespace Sys2Proof.Machine

/-! ### setEngine, setAgenda, deliver, answered -/

@[simp] theorem State.setEngine_cfg (s : State) (e : Nat) (g : Engine) : (s.setEngine e g).cfg = s.cfg := rfl

@[simp] theorem State.setEngine_engines (s : State) (e : Nat) (g : Engine) :
    (s.setEngine e g).engines = s.engines.set e g := rfl

@[simp] theorem State.setEngine_agenda (s : State) (e : Nat) (g : Engine) : (s.setEngine e g).agenda = s.agenda := rfl

@[simp] theorem State.setEngine_delivered (s : State) (e : Nat) (g : Engine) :
    (s.setEngine e g).delivered = s.delivered := rfl

@[simp] theorem State.setAgenda_cfg (s : State) (ms : List Move) : (s.setAgenda ms).cfg = s.cfg := rfl

@[simp] theorem State.setAgenda_engines (s : State) (ms : List Move) : (s.setAgenda ms).engines = s.engines := rfl

@[simp] theorem State.setAgenda_agenda (s : State) (ms : List Move) : (s.setAgenda ms).agenda = ms := rfl

@[simp] theorem State.setAgenda_delivered (s : State) (ms : List Move) : (s.setAgenda ms).delivered = s.delivered := rfl

@[simp] theorem State.deliver_cfg (s : State) (d : Delivery) : (s.deliver d).cfg = s.cfg := rfl

@[simp] theorem State.deliver_engines (s : State) (d : Delivery) : (s.deliver d).engines = s.engines := rfl

@[simp] theorem State.deliver_agenda (s : State) (d : Delivery) : (s.deliver d).agenda = s.agenda := rfl

@[simp] theorem State.deliver_delivered (s : State) (d : Delivery) : (s.deliver d).delivered = s.delivered ++ [d] := rfl

@[simp] theorem State.answered_cfg (s : State) (e : Nat) (g : Engine) (ms : List Move) (out : Memory) (r : Response) :
    (s.answered e g ms out r).cfg = s.cfg := rfl

@[simp] theorem State.answered_engines (s : State) (e : Nat) (g : Engine) (ms : List Move) (out : Memory) (r : Response) :
    (s.answered e g ms out r).engines = s.engines.set e ⟨.done r, g.inMem, out⟩ := rfl

@[simp] theorem State.answered_agenda (s : State) (e : Nat) (g : Engine) (ms : List Move) (out : Memory) (r : Response) :
    (s.answered e g ms out r).agenda = ms := rfl

@[simp] theorem State.answered_delivered (s : State) (e : Nat) (g : Engine) (ms : List Move) (out : Memory)
    (r : Response) : (s.answered e g ms out r).delivered = s.delivered := rfl

@[simp] theorem State.reset_agenda : State.reset.agenda = [] := rfl

@[simp] theorem State.reset_delivered : State.reset.delivered = [] := rfl

/-! ### Turns -/

/-- The turn of a state, from what makes it one. -/
theorem turn_of_atTurn {s : State} {e : Nat} {g : Engine} {req : Request} {rest : List Move}
    (h : s.AtTurn e g req rest) : turn s = .ok ⟨e, g, req, rest⟩ := by
  obtain ⟨ha, he, hp⟩ := h
  simp [turn, ha, he, hp]

/-- What a turn says of the state. -/
theorem atTurn_of_turn {s : State} {t : Turn} (h : turn s = .ok t) : s.AtTurn t.engine t.eng t.req t.rest := by
  unfold turn at h
  split at h
  · rename_i e rest ha
    split at h
    · cases h
    · rename_i g he
      split at h
      · rename_i req hp
        cases h
        exact ⟨ha, he, hp⟩
      · cases h
      · cases h
  · cases h

/-- A meaning at an engine's turn runs on that turn. -/
theorem atTurn_eq {s : State} {e : Nat} {g : Engine} {req : Request} {rest : List Move}
    (h : s.AtTurn e g req rest) (k : Turn → Host.Outcome State Fault Refusal) :
    atTurn s k = k ⟨e, g, req, rest⟩ := by
  simp [atTurn, turn_of_atTurn h]

/-- A meaning that answers a next state ran at some engine's turn. -/
theorem atTurn_next {s s' : State} {k : Turn → Host.Outcome State Fault Refusal} (h : atTurn s k = .next s') :
    ∃ t, turn s = .ok t ∧ k t = .next s' := by
  unfold atTurn at h
  split at h
  · exact ⟨_, by assumption, h⟩
  · cases h

/-! ### Answers -/

/-- `respond` is the answered state. -/
theorem respond_eq (s : State) (t : Turn) (out : Memory) (r : Response) :
    respond s t out r = .next (s.answered t.engine t.eng t.rest out r) := rfl

/-- `raiseError` answers the error form and leaves OUT alone (R106). -/
theorem raiseError_eq (s : State) (t : Turn) (err : CodecError) :
    raiseError s t err = .next (s.answered t.engine t.eng t.rest t.eng.outMem err.response) := rfl

end Sys2Proof.Machine
end

