-- ==== Sys2Proof/Laws/Exec.lean ====
section
/-! SUPPORT. One lemma per shared operation of the meanings: everything it can do, once. -/

namespace Sys2Proof.Machine

/-! ### Byte order -/

@[simp] theorem length_bytesBE (n v : Nat) : (bytesBE n v).length = n := by
  induction n generalizing v with
  | zero => rfl
  | succ n ih => simp [bytesBE, ih]

@[simp] theorem length_headerBytes (totalLen : Nat) (tag : Byte) (seq : Seq) :
    (headerBytes totalLen tag seq).length = 13 := by
  simp [headerBytes]

/-! ### ENCODE -/

/-- `writeFrame` is one block write of the header and the payload. -/
theorem writeFrame_eq (out : Memory) (kind : Kind) (seq : Seq) (payload : List Byte) :
    writeFrame out kind seq payload
      = out.writeN 0 (headerBytes (13 + payload.length) kind.tag seq ++ payload) := by
  have app : ∀ (xs ys : List Byte) (m : Memory) (a : Nat),
      m.writeN a (xs ++ ys) = (m.writeN a xs).writeN (a + xs.length) ys := by
    intro xs
    induction xs with
    | nil => intro ys m a; rfl
    | cons x xs ih =>
      intro ys m a
      rw [List.cons_append, Memory.writeN, Memory.writeN, ih, List.length_cons]
      congr 1
      omega
  simp only [writeFrame, headerBytes, app, length_bytesBE, List.length_append, List.length_singleton]

/-- The frame ENCODE leaves in OUT. -/
theorem readN_writeFrame (out : Memory) (kind : Kind) (seq : Seq) (payload : List Byte) (h : out.wf) :
    (writeFrame out kind seq payload).readN 0 (13 + payload.length)
      = headerBytes (13 + payload.length) kind.tag seq ++ payload := by
  rw [writeFrame_eq]
  have := Memory.readN_writeN_same (headerBytes (13 + payload.length) kind.tag seq ++ payload) out 0 h
  rwa [List.length_append, length_headerBytes] at this

/-- OUT outside the frame. -/
theorem read_writeFrame_outside (out : Memory) (kind : Kind) (seq : Seq) (payload : List Byte) (a : Nat)
    (h : 13 + payload.length ≤ a) : (writeFrame out kind seq payload).read a = out.read a := by
  rw [writeFrame_eq]
  exact Memory.read_writeN_outside _ _ _ _ (.inr (by simpa using h))

/-- The three things ENCODE can do (R68, R117). -/
theorem runEncode_cases (kind : Kind) (seq : Seq) (plen : Nat) (s : State) (t : Turn) :
    (s.cfg.maxInLen < plen ∧ runEncode kind seq plen s t = .refused .requestTooLong) ∨
    (plen ≤ s.cfg.maxInLen ∧ maxTotalLen < 13 + plen ∧ runEncode kind seq plen s t =
      .next (s.answered t.engine t.eng t.rest t.eng.outMem (.errTotalLenOverflow (13 + plen)))) ∨
    (plen ≤ s.cfg.maxInLen ∧ 13 + plen ≤ maxTotalLen ∧ runEncode kind seq plen s t =
      .next (s.answered t.engine t.eng t.rest (writeFrame t.eng.outMem kind seq (t.eng.inMem.readN 0 plen))
        (.okEncode (13 + plen)))) := by
  unfold runEncode
  split
  · exact .inl ⟨by assumption, rfl⟩
  · split
    · exact .inr (.inl ⟨by omega, by assumption, rfl⟩)
    · exact .inr (.inr ⟨by omega, by omega, rfl⟩)

/-! ### What a response covers

Rewrite with these (`rw`) rather than by definition: the kernel may otherwise evaluate a length inside the response. -/

theorem Response.covered_okEncode (n : Nat) : (Response.okEncode n).covered = n := rfl

theorem Response.covered_okDecode (k : Kind) (q : Seq) (n : Nat) : (Response.okDecode k q n).covered = n := rfl

theorem CodecError.covered_response (err : CodecError) : err.response.covered = 0 := by cases err <;> rfl

theorem CodecError.ok_response (err : CodecError) : err.response.ok = false := by cases err <;> rfl

/-! ### DECODE -/

/-- The five things DECODE can do (R80, R117). -/
theorem runDecode_cases (inp : Memory) (blen : Nat) (s : State) (t : Turn) :
    (s.cfg.maxInLen < blen ∧ runDecode inp blen s t = .refused .requestTooLong) ∨
    (blen ≤ s.cfg.maxInLen ∧ blen < 4 ∧ runDecode inp blen s t =
      .next (s.answered t.engine t.eng t.rest t.eng.outMem .errTooShort)) ∨
    (blen ≤ s.cfg.maxInLen ∧ 4 ≤ blen ∧ ((totalLenAt inp).toNat < 13 ∨ blen < (totalLenAt inp).toNat) ∧
      runDecode inp blen s t =
        .next (s.answered t.engine t.eng t.rest t.eng.outMem (.errInvalidTotalLen (totalLenAt inp) blen))) ∨
    (blen ≤ s.cfg.maxInLen ∧ 13 ≤ (totalLenAt inp).toNat ∧ (totalLenAt inp).toNat ≤ blen ∧
      kindOfTag (inp.read 4) = none ∧ runDecode inp blen s t =
        .next (s.answered t.engine t.eng t.rest t.eng.outMem (.errUnknownType (inp.read 4)))) ∨
    (∃ kind, blen ≤ s.cfg.maxInLen ∧ 13 ≤ (totalLenAt inp).toNat ∧ (totalLenAt inp).toNat ≤ blen ∧
      kindOfTag (inp.read 4) = some kind ∧ runDecode inp blen s t =
        .next (s.answered t.engine t.eng t.rest
          (t.eng.outMem.writeN 0 (inp.readN 13 ((totalLenAt inp).toNat - 13)))
          (.okDecode kind (seqAt inp) ((totalLenAt inp).toNat - 13)))) := by
  unfold runDecode
  split
  · exact .inl ⟨by assumption, rfl⟩
  · split
    · exact .inr (.inl ⟨by omega, by assumption, rfl⟩)
    · split
      · exact .inr (.inr (.inl ⟨by omega, by omega, by assumption, rfl⟩))
      · split
        · exact .inr (.inr (.inr (.inl ⟨by omega, by omega, by omega, by assumption, rfl⟩)))
        · exact .inr (.inr (.inr (.inr ⟨_, by omega, by omega, by omega, by assumption, rfl⟩)))

/-- DECODE's answer depends on what it reads only (R93). -/
theorem runDecode_congr {inp inp' : Memory} (h : ∀ a, inp.read a = inp'.read a) (blen : Nat) (s : State) (t : Turn) :
    runDecode inp blen s t = runDecode inp' blen s t := by
  have hn : ∀ a n, inp.readN a n = inp'.readN a n := fun a n => Memory.readN_congr fun b _ _ => h b
  simp only [runDecode, totalLenAt, seqAt, hn, h]
  rfl

/-- A tag that names a kind is that kind's tag. -/
theorem kindOfTag_eq_some {t : Byte} {k : Kind} : kindOfTag t = some k ↔ t = k.tag := by
  constructor
  · intro h
    unfold kindOfTag at h
    split at h
    · cases h; assumption
    · split at h
      · cases h; assumption
      · split at h
        · cases h; assumption
        · cases h
  · rintro rfl
    cases k <;> rfl

/-- A tag that names no kind is reserved (R58). -/
theorem kindOfTag_eq_none {t : Byte} : kindOfTag t = none ↔ 3 ≤ t.toNat := by
  revert t
  decide

end Sys2Proof.Machine
end

