-- ==== Sys2Proof/Laws/HostMoves.lean ====
section
/-! SUPPORT. What the host's program lines and a reset do, once each. -/

namespace Sys2Proof.Machine

/-! ### Program lines -/

/-- A line IN can hold is a write and an issue. -/
theorem HostLine.issueMoves_of_le {c : Config} (l : HostLine) {bytes : List Byte} (h : bytes.length ≤ c.maxInLen) :
    l.issueMoves c bytes = [.write l.engine 0 bytes, .issue l.engine (l.cmd.request bytes.length)] := if_pos h

/-- A line IN cannot hold is its issue alone. -/
theorem HostLine.issueMoves_of_lt {c : Config} (l : HostLine) {bytes : List Byte} (h : c.maxInLen < bytes.length) :
    l.issueMoves c bytes = [.issue l.engine (l.cmd.request bytes.length)] := if_neg (Nat.not_le.mpr h)

/-- Lines whose bytes are all readable assemble line by line. -/
theorem issueMoves_of_some (s : State) (ls : List HostLine) (bss : List (List Byte))
    (h : ls.map (fun l => l.bytes.eval (previousOut s l.engine)) = bss.map some) :
    Machine.issueMoves s ls = some ((ls.zip bss).flatMap (fun p => p.1.issueMoves s.cfg p.2)) := by
  induction ls generalizing bss with
  | nil => rfl
  | cons l ls ih =>
    cases bss with
    | nil => cases h
    | cons bs bss =>
      obtain ⟨h1, h2⟩ := List.cons.inj h
      simp [Machine.issueMoves, h1, ih bss h2]

/-- A line whose bytes are not readable stops the whole group. -/
theorem issueMoves_of_none (s : State) (ls : List HostLine)
    (h : ∃ l ∈ ls, l.bytes.eval (previousOut s l.engine) = none) : Machine.issueMoves s ls = none := by
  induction ls with
  | nil => simp at h
  | cons l ls ih =>
    obtain ⟨l', hm, h'⟩ := h
    rcases List.mem_cons.mp hm with rfl | hm
    · simp [Machine.issueMoves, h']
    · unfold Machine.issueMoves
      split
      · rename_i hs
        simp [ih ⟨l', hm, h'⟩] at hs
      · rfl

/-- The length of the request a line assembles to. -/
@[simp] theorem HostCommand.request_len (n : Nat) (cmd : HostCommand) : (cmd.request n).len = n := by cases cmd <;> rfl

/-- A program line cannot assemble to the reserved command word. -/
theorem HostCommand.request_cmd_ne (n : Nat) (cmd : HostCommand) : (cmd.request n).cmd ≠ 0b110#3 := by
  cases cmd with
  | encode kind seq =>
    show cmdWord kind.code 0b0#1 ≠ 0b110#3
    cases kind <;> decide
  | decode =>
    show cmdWord 0b00#2 0b1#1 ≠ 0b110#3
    decide

/-! ### Reset -/

/-- A reset keeps the number of engines. -/
@[simp] theorem resetEngines_length (c : Config) (es : List Engine) (ks : List Contents) :
    (resetEngines c es ks).length = es.length := by
  induction es generalizing ks with
  | nil => rfl
  | cons g es ih => cases ks <;> simp [resetEngines, ih]

/-- Each engine after a reset: with the contents carried for it, or with the bytes it had. -/
theorem resetEngines_getElem? (c : Config) (es : List Engine) (ks : List Contents) (e : Nat) :
    (resetEngines c es ks)[e]? = es[e]?.map (fun g =>
      match ks[e]? with
      | some k => Engine.resetTo c k
      | none => { g with phase := .idle }) := by
  induction es generalizing ks e with
  | nil => rfl
  | cons g es ih => cases ks <;> cases e <;> simp [resetEngines, ih]

/-- The space made from a run of cells holds their bytes. -/
theorem Memory.readN_ofCells (cap a : Nat) (bytes : List Byte) (h : a + bytes.length ≤ cap) :
    (Memory.ofCells cap (cellsFrom a bytes)).readN a bytes.length = bytes := by
  induction bytes generalizing a with
  | nil => rfl
  | cons b bytes ih =>
    simp only [List.length_cons] at h
    simp only [cellsFrom, Memory.ofCells, List.length_cons, Memory.readN]
    rw [if_pos (by omega), Memory.read_write_same _ _ _ (Memory.wf_ofCells _ _)]
    refine congrArg _ (Eq.trans ?_ (ih (a + 1) (by omega)))
    exact Memory.readN_congr fun c h1 _ => Memory.read_write_other _ _ _ _ (by omega)

end Sys2Proof.Machine
end

