-- ==== Sys2Proof/Laws/PerInstr.lean ====
section
/-! SUPPORT. Statements made per instruction: the family TableRow (the words of an instruction meet the format, match and
mask of its row of spec/opcode_table.json). -/

namespace Sys2Proof.Laws.TableRow

/-- A well-formed instruction's words are covered by its row, and by no other row of the table. -/
def Statement (i : Instr) : Prop := i.wf → ∀ r : Row, r.covers (encode i) = true ↔ r = i.row

theorem encodeData (seq : BitVec 64) (plen : Nat) : Statement (.encodeData seq plen) := by
  intro _ r; cases r <;> simp [encode, Row.covers, Instr.row, cmdWord]

theorem encodeAck (seq : BitVec 64) (plen : Nat) : Statement (.encodeAck seq plen) := by
  intro _ r; cases r <;> simp [encode, Row.covers, Instr.row, cmdWord]

theorem encodeSyn (seq : BitVec 64) (plen : Nat) : Statement (.encodeSyn seq plen) := by
  intro _ r; cases r <;> simp [encode, Row.covers, Instr.row, cmdWord]

theorem decode (kindBits : BitVec 2) (blen : Nat) : Statement (.decode kindBits blen) := by
  intro _ r
  have h : ∀ k : BitVec 2, cmdWord k 0b1#1 &&& 0b001#3 = 0b001#3 ∧ cmdWord k 0b1#1 &&& 0b111#3 ≠ 0b000#3 ∧
      cmdWord k 0b1#1 &&& 0b111#3 ≠ 0b010#3 ∧ cmdWord k 0b1#1 &&& 0b111#3 ≠ 0b100#3 ∧
      cmdWord k 0b1#1 &&& 0b111#3 ≠ 0b110#3 := by decide
  obtain ⟨h1, h2, h3, h4, h5⟩ := h kindBits
  cases r <;> simp only [encode, Row.covers, Instr.row, beq_iff_eq, h1, h2, h3, h4, h5] <;> simp

theorem reservedEncodeKind3 (seq : BitVec 64) (plen : Nat) : Statement (.reservedEncodeKind3 seq plen) := by
  intro _ r; cases r <;> simp [encode, Row.covers, Instr.row, cmdWord]

theorem frameHeader (totalLen : BitVec 32) (tag : BitVec 8) (seq : BitVec 64) :
    Statement (.frameHeader totalLen tag seq) := by
  intro _ r
  cases r <;> simp [encode, Row.covers, Instr.row]

theorem tagData : Statement .tagData := by
  intro _ r; cases r <;> simp [encode, Row.covers, Instr.row]

theorem tagAck : Statement .tagAck := by
  intro _ r; cases r <;> simp [encode, Row.covers, Instr.row]

theorem tagSyn : Statement .tagSyn := by
  intro _ r; cases r <;> simp [encode, Row.covers, Instr.row]

theorem tagReserved (tag : BitVec 8) : Statement (.tagReserved tag) := by
  intro hw r
  have h : ∀ t : BitVec 8, 3 ≤ t.toNat → t &&& 0xFF#8 ≠ 0x00#8 ∧ t &&& 0xFF#8 ≠ 0x01#8 ∧ t &&& 0xFF#8 ≠ 0x02#8 := by
    decide
  obtain ⟨h1, h2, h3⟩ := h tag hw
  cases r <;> simp only [encode, Row.covers, Instr.row, beq_iff_eq, h1, h2, h3] <;> simp [hw]

end Sys2Proof.Laws.TableRow
end

