-- ==== Sys2Proof/Tests/Slice0.lean ====
section
/-! SUPPORT. Small tests. Expected values are those of spec/95_test_vectors.md (the vector's id stands in each comment) or
are written out from the encoding tables of spec/30_encoding.md. -/

namespace Sys2Proof.Tests

open Sys2Proof Sys2Proof.Machine

/-! ### Helpers -/

/-- A space that holds the given bytes from offset 0. -/
def space (bytes : List Byte) : Memory := (⟨[]⟩ : Memory).writeN 0 bytes

/-- Engine 0 BUSY with a request, its execute step next. -/
def busyState (inp out : List Byte) (r : Request) : State where
  cfg := Config.chosen
  engines := [⟨.busy r, space inp, space out⟩, ⟨.idle, space [], space []⟩]
  agenda := [.execute 0]
  delivered := []

/-- The response of engine 0 after an outcome. -/
def response (o : Host.Outcome State Fault Refusal) : Option Response :=
  match (nextOf o).bind (fun s => s.engines.head?.map Engine.phase) with
  | some (.done r) => some r
  | _ => none

/-- The first `n` bytes of engine 0's OUT after an outcome. -/
def outBytes (n : Nat) (o : Host.Outcome State Fault Refusal) : Option (List Byte) :=
  match nextOf o with
  | some s => s.engines[0]?.map (fun eng => eng.outMem.readN 0 n)
  | none => none

/-- One step of engine 0 on a command word, a sequence, and a buffer. -/
def run (cmd : BitVec 3) (seq : Seq) (bytes : List Byte) : Host.Outcome State Fault Refusal :=
  step (busyState bytes [0xEE#8] ⟨cmd, seq, bytes.length⟩)

/-- Eight zero bytes. -/
def zeros8 : List Byte := List.replicate 8 0x00#8

/-- The frame of vector L1-1. -/
def frameL1 : List Byte :=
  [0x00#8, 0x00#8, 0x00#8, 0x10#8, 0x02#8, 0x00#8, 0x00#8, 0x00#8, 0x00#8, 0x00#8, 0x00#8, 0x30#8, 0x39#8,
    0x11#8, 0x22#8, 0x33#8]

/-! ### WellFormed -/

/-- R58: 0x02 is the tag of Syn, not a reserved one. -/
theorem test_wf_refuses_tag_two_as_reserved : ¬ (Instr.tagReserved 0x02#8).wf := by decide

theorem test_wf_admits_reserved_tag_three : (Instr.tagReserved 0x03#8).wf := by decide

/-! ### Decoding (words written out from R54, R57, R63) -/

theorem test_decode_cmd_000 : decode (.command 0b000#3 7 3) = .ok (.encodeData 7 3) := by decide

theorem test_decode_cmd_010 : decode (.command 0b010#3 7 3) = .ok (.encodeAck 7 3) := by decide

theorem test_decode_cmd_100 : decode (.command 0b100#3 0x3039 3) = .ok (.encodeSyn 0x3039 3) := by decide

theorem test_decode_cmd_110 : decode (.command 0b110#3 0 0) = .ok (.reservedEncodeKind3 0 0) := by decide

theorem test_decode_cmd_001 : decode (.command 0b001#3 0 16) = .ok (.decode 0b00#2 16) := by decide

theorem test_decode_cmd_101 : decode (.command 0b101#3 9 16) = .ok (.decode 0b10#2 16) := by decide

/-- The header of L1-1: total_len 16, type 2, sequence 12345 = 0x3039. -/
theorem test_decode_header :
    decode (.header (frameL1.take 13)) = .ok (.frameHeader 16#32 0x02#8 12345#64) := by decide

/-- E-3's sequence: every byte of the field at its place. -/
theorem test_decode_header_byte_order :
    decode (.header [0x00#8, 0x00#8, 0x01#8, 0x02#8, 0x03#8, 0x01#8, 0x02#8, 0x03#8, 0x04#8, 0x05#8, 0x06#8, 0x07#8, 0x08#8])
      = .ok (.frameHeader 258#32 0x03#8 0x0102030405060708#64) := by decide

theorem test_decode_short_header : decode (.header (frameL1.take 12)) = .error .headerNotThirteenBytes := by decide

theorem test_decode_no_tag : decode (.tag []) = .error .tagNotOneByte := by decide

theorem test_decode_tags :
    decode (.tag [0x00#8]) = .ok .tagData ∧ decode (.tag [0x01#8]) = .ok .tagAck ∧ decode (.tag [0x02#8]) = .ok .tagSyn ∧
      decode (.tag [0x03#8]) = .ok (.tagReserved 0x03#8) ∧ decode (.tag [0xFF#8]) = .ok (.tagReserved 0xFF#8) := by decide

theorem test_table_words :
    decodeTableWord 8 0 = some (.encodeData 0 0) ∧ decodeTableWord 8 1 = some (.decode 0b00#2 0) ∧
      decodeTableWord 8 6 = some (.reservedEncodeKind3 0 0) ∧ decodeTableWord 8 0xFF = some (.tagReserved 0xFF#8) ∧
      decodeTableWord 104 0x00000010020000000000003039 = some (.frameHeader 16#32 0x02#8 12345#64) := by decide

/-- `withFetchWord` from reset: the next step is `exec` of the decoded word. -/
theorem test_fetch_word_runs (w : Nat) (hw : w ∈ [0, 1, 2, 4, 6, 0x80]) :
    (decodeTableWord 8 w).map (fun i => (nextOf (exec i (State.reset.withFetchWord 8 w)),
        refusalOf (exec i (State.reset.withFetchWord 8 w))))
      = some (nextOf (step (State.reset.withFetchWord 8 w)), refusalOf (step (State.reset.withFetchWord 8 w))) := by
  revert w; decide

theorem test_fetch_header_runs :
    nextOf (exec (.frameHeader 13#32 0x01#8 7#64) (State.reset.withFetchWord 104 0x0000000D010000000000000007))
      = nextOf (step (State.reset.withFetchWord 104 0x0000000D010000000000000007)) := by decide

/-! ### ENCODE -/

/-- L1-1. -/
theorem test_encode_syn : response (run 0b100#3 12345 [0x11#8, 0x22#8, 0x33#8]) = some (.okEncode 16) ∧
    outBytes 16 (run 0b100#3 12345 [0x11#8, 0x22#8, 0x33#8]) = some frameL1 := by decide

/-- E-1. -/
theorem test_encode_data_empty : response (run 0b000#3 0 []) = some (.okEncode 13) ∧
    outBytes 13 (run 0b000#3 0 []) = some ([0x00#8, 0x00#8, 0x00#8, 0x0D#8, 0x00#8] ++ zeros8) := by decide

/-- E-2. -/
theorem test_encode_ack : response (run 0b010#3 0xFFFFFFFFFFFFFFFF [0xAB#8]) = some (.okEncode 14) ∧
    outBytes 14 (run 0b010#3 0xFFFFFFFFFFFFFFFF [0xAB#8])
      = some ([0x00#8, 0x00#8, 0x00#8, 0x0E#8, 0x01#8] ++ List.replicate 8 0xFF#8 ++ [0xAB#8]) := by decide

/-- E-8: the smallest payload that overflows; OUT unchanged. -/
theorem test_encode_overflow :
    response (step (busyState [] [0xEE#8] ⟨0b000#3, 0, 4294967283⟩)) = some (.errTotalLenOverflow 4294967296) ∧
      outBytes 1 (step (busyState [] [0xEE#8] ⟨0b000#3, 0, 4294967283⟩)) = some [0xEE#8] := by decide

/-- E-11 and E-12. -/
theorem test_refusals :
    refusalOf (run 0b110#3 0 []) = some .reservedKindCode ∧
      refusalOf (step (busyState [] [] ⟨0b000#3, 0, 4294967297⟩)) = some .requestTooLong := by decide

/-! ### DECODE -/

/-- D-14: two trailing bytes ignored. -/
theorem test_decode_trailing : response (run 0b001#3 0 (frameL1 ++ [0xAA#8, 0xBB#8])) = some (.okDecode .syn 12345 3) ∧
    outBytes 3 (run 0b001#3 0 (frameL1 ++ [0xAA#8, 0xBB#8])) = some [0x11#8, 0x22#8, 0x33#8] := by decide

/-- D-2, D-5, D-11, D-12. -/
theorem test_decode_length_errors :
    response (run 0b111#3 0 [0x00#8, 0x00#8, 0x00#8]) = some .errTooShort ∧
      response (run 0b001#3 0 ([0x00#8, 0x00#8, 0x00#8, 0x0C#8] ++ zeros8)) = some (.errInvalidTotalLen 12 12) ∧
      response (run 0b001#3 0 ([0x80#8, 0x00#8, 0x00#8, 0x00#8] ++ zeros8 ++ [0x00#8, 0x00#8, 0x00#8, 0x00#8]))
        = some (.errInvalidTotalLen 2147483648 16) ∧
      response (run 0b001#3 0 ([0x00#8, 0x00#8, 0x00#8, 0x05#8, 0x07#8] ++ zeros8))
        = some (.errInvalidTotalLen 5 13) := by decide

/-- D-7: the smallest reserved tag; OUT unchanged. -/
theorem test_decode_unknown : response (run 0b001#3 0 ([0x00#8, 0x00#8, 0x00#8, 0x0D#8, 0x03#8] ++ zeros8))
      = some (.errUnknownType 0x03#8) ∧
    outBytes 1 (run 0b001#3 0 ([0x00#8, 0x00#8, 0x00#8, 0x0D#8, 0x03#8] ++ zeros8)) = some [0xEE#8] := by decide

/-! ### Wire words -/

/-- D-17's header laid over zeros: blen 16, payload bytes 41 42 43 from IN. -/
theorem test_wire_header :
    response (exec (.frameHeader 16#32 0x00#8 1#64)
        (busyState (List.replicate 13 0x00#8 ++ [0x41#8, 0x42#8, 0x43#8]) [] ⟨0b001#3, 0, 16⟩))
      = some (.okDecode .data 1 3) := by decide

/-- The frame of L1-1 with another type byte. -/
theorem test_wire_tags :
    response (exec .tagData (busyState frameL1 [] ⟨0b001#3, 0, 16⟩)) = some (.okDecode .data 12345 3) ∧
      response (exec .tagAck (busyState frameL1 [] ⟨0b001#3, 0, 16⟩)) = some (.okDecode .ack 12345 3) ∧
      response (exec .tagSyn (busyState frameL1 [] ⟨0b001#3, 0, 16⟩)) = some (.okDecode .syn 12345 3) ∧
      response (exec (.tagReserved 0xFF#8) (busyState frameL1 [] ⟨0b001#3, 0, 16⟩)) = some (.errUnknownType 0xFF#8) ∧
      faultOf (exec .tagData (busyState frameL1 [] ⟨0b000#3, 0, 3⟩)) = some .wireWordNotRead := by decide

/-! ### Host moves -/

/-- Program P1 as host lines, from reset. -/
def programP1 : State :=
  State.reset.setAgenda
    [.lines [⟨0, .encode .syn 12345, .lit [0x11#8, 0x22#8, 0x33#8]⟩] [0], .lines [⟨0, .decode, .out⟩] [0]]

/-- P1: the observation of engine 0, and OUT[0 .. 16) at its end. -/
theorem test_program_P1 :
    (nextOf (Sys2Proof.core.run 10 programP1)).map (fun s => (s.observation 0, s.engines[0]?.map (fun g => g.outMem.readN 0 16)))
      = some ([(.okEncode 16, frameL1), (.okDecode .syn 12345 3, [0x11#8, 0x22#8, 0x33#8])],
          some ([0x11#8, 0x22#8, 0x33#8] ++ frameL1.drop 3)) := by decide

/-- Program P4: lines 1 and 2 issued together, their engines executing in the given order, then line 3. -/
def programP4 (order : List Nat) : State :=
  State.reset.setAgenda
    [.lines [⟨0, .encode .ack 0xFFFFFFFFFFFFFFFF, .lit [0xAB#8]⟩, ⟨1, .decode, .cat (.lit [0x80#8]) (.rep 15 0x00#8)⟩] order,
      .lines [⟨0, .decode, .out⟩] [0]]

/-- P4: the same responses in both orders of the first two execute steps. -/
theorem test_program_P4 (order : List Nat) (h : order ∈ [[0, 1], [1, 0]]) :
    (nextOf (Sys2Proof.core.run 14 (programP4 order))).map
        (fun s => ((s.observation 0).map Prod.fst, (s.observation 1).map Prod.fst, s.engines[0]?.map (fun g => g.outMem.readN 0 2)))
      = some ([.okEncode 14, .okDecode .ack 18446744073709551615 1], [.errInvalidTotalLen 2147483648#32 16],
          some [0xAB#8, 0x00#8]) := by
  revert order
  decide

/-- A machine like that of reset, but with an IN of 4 bytes. -/
def smallIn (ms : List Move) : State := { State.reset with cfg := { Config.chosen with maxInLen := 4 }, agenda := ms }

/-- E-12, and P3 without its premise: a line with more bytes than IN holds is refused (R117); with as many it runs. -/
theorem test_line_over_capacity_is_refused :
    refusalOf (Sys2Proof.core.run 2 (smallIn [.lines [⟨0, .encode .data 0, .rep 5 0x00#8⟩] [0]])) = some .requestTooLong ∧
      refusalOf (Sys2Proof.core.run 2 (smallIn [.lines [⟨1, .decode, .rep 5 0x00#8⟩] [1]])) = some .requestTooLong ∧
      (nextOf (Sys2Proof.core.run 5 (smallIn [.lines [⟨0, .encode .data 0, .rep 4 0x00#8⟩] [0]]))).isSome = true := by decide

/-- R66: OUT needs a previous response, which must be a success. -/
theorem test_out_not_readable :
    faultOf (step (State.reset.setAgenda [.lines [⟨0, .decode, .out⟩] [0]])) = some .outNotReadable ∧
      faultOf (step ((State.reset.deliver ⟨0, .errTooShort, []⟩).setAgenda [.lines [⟨0, .decode, .out⟩] [0]]))
        = some .outNotReadable := by decide

theorem test_issue_to_busy_has_no_move :
    faultOf (step ((busyState [] [] ⟨0b001#3, 0, 0⟩).setAgenda [.issue 0 ⟨0b001#3, 0, 0⟩])) = some .issueNotIdle := by decide

theorem test_write_while_busy_has_no_move :
    faultOf (step ((busyState [] [] ⟨0b001#3, 0, 0⟩).setAgenda [.write 0 0 [0x00#8]])) = some .writeWhileBusy := by decide

theorem test_reset_loses_request :
    (nextOf (step ((busyState [] [] ⟨0b001#3, 0, 0⟩).setAgenda [.reset [⟨[(3, 0x07#8)], []⟩]]))).map
        (fun s => s.engines.map (fun g => (g.phase, g.inMem.readN 2 3)))
      = some [(.idle, [0x00#8, 0x07#8, 0x00#8]), (.idle, [0x00#8, 0x00#8, 0x00#8])] := by decide

/-! ## Witnesses

For every statement of Certificates/Slice0/Obligations.lean that has hypotheses: a state and operands that meet them all, for
each clause. -/

/-- Engine 0 of `busyState`. -/
abbrev eng0 (inp out : List Byte) (r : Request) : Engine := ⟨.busy r, space inp, space out⟩

theorem busy_atTurn (inp out : List Byte) (r : Request) : (busyState inp out r).AtTurn 0 (eng0 inp out r) r [] :=
  ⟨rfl, rfl, rfl⟩

theorem space_wf (bytes : List Byte) : (space bytes).wf := Memory.wf_writeN (by decide) 0 bytes

/-- An outcome that has a next state answers it. -/
theorem eq_next {o : Host.Outcome State Fault Refusal} {s : State} (h : nextOf o = some s) : o = .next s := by
  cases o <;> simp [nextOf] at h; rw [h]

/-- A DECODE request for 16 bytes. -/
abbrev dec16 : Request := ⟨0b001#3, 0, 16⟩

/-- An ENCODE.SYN request for 3 bytes. -/
abbrev syn3 : Request := ⟨0b100#3, 12345, 3⟩

/-- The frame of L1-1 received, OUT holding one byte. -/
abbrev recv : State := busyState frameL1 [0xEE#8] dec16

/-- Bytes that make an unknown tag behind a valid length. -/
abbrev badTag : List Byte := [0x00#8, 0x00#8, 0x00#8, 0x0D#8, 0xFF#8] ++ zeros8

theorem witness_DecodingAnEncodedInstructionGivesItBack :
    (Instr.tagReserved 0x03#8).wf ∧ (Instr.tagReserved 0xFF#8).wf ∧ (Instr.encodeSyn 0 0).wf := by decide

theorem witness_EncodingADecodedWordGivesItBack :
    decode (.command 0b111#3 9 0) = .ok (.decode 0b11#2 0) ∧ decode (.tag [0xFF#8]) = .ok (.tagReserved 0xFF#8) := by decide

theorem witness_EveryDecodedWordMeetsExactlyItsRow :
    decode (.command 0b110#3 9 0) = .ok (.reservedEncodeKind3 9 0) ∧ decode (.tag [0x02#8]) = .ok .tagSyn := by decide

theorem witness_HeaderBitsStandWhereTheFormatPutsThem : 0 ≤ 12 ∧ 12 ≤ 12 ∧ 3 ≤ 3 ∧ 5 ≤ 5 ∧ 5 ≤ 12 := by decide

theorem witness_BigEndianBytesAndValuesAgree : 0 < 256 ^ 0 ∧ 4294967295 < 256 ^ 4 := by decide

theorem witness_StepRunsTheRequestedCommand : recv.AtTurn 0 (eng0 frameL1 [0xEE#8] dec16) dec16 [] := busy_atTurn _ _ _

theorem witness_DecodeStepIsItsHeaderWordsMeaning :
    recv.AtTurn 0 (eng0 frameL1 [0xEE#8] dec16) dec16 [] ∧ opBit dec16.cmd = true ∧ (space frameL1).wf ∧
      (space frameL1).readN 0 13 = frameL1.take 13 ∧
      decode (.header (frameL1.take 13)) = .ok (.frameHeader 16#32 0x02#8 12345#64) :=
  ⟨busy_atTurn _ _ _, by decide, space_wf _, by decide, by decide⟩

theorem witness_DecodeStepIsItsTagWordsMeaning :
    recv.AtTurn 0 (eng0 frameL1 [0xEE#8] dec16) dec16 [] ∧ opBit dec16.cmd = true ∧ (space frameL1).wf ∧
      decode (.tag [(space frameL1).read 4]) = .ok .tagSyn :=
  ⟨busy_atTurn _ _ _, by decide, space_wf _, by decide⟩

theorem witness_EncodeWritesTheFrame :
    (busyState [] [] syn3).AtTurn 0 (eng0 [] [] syn3) syn3 [] ∧ (space []).wf ∧
      4294967282 ≤ Config.chosen.maxInLen ∧ 13 + 4294967282 ≤ maxTotalLen ∧ 13 + 0 ≤ maxTotalLen ∧
      (Instr.encodeSyn 5 4294967282, 0x02#8) ∈ [(Instr.encodeData 5 4294967282, 0x00#8),
        (Instr.encodeAck 5 4294967282, 0x01#8), (Instr.encodeSyn 5 4294967282, 0x02#8)] :=
  ⟨busy_atTurn _ _ _, space_wf _, by decide, by decide, by decide, by simp⟩

theorem witness_EncodeOverflowsExactlyPastTheLargestPayload :
    (busyState [] [] syn3).AtTurn 0 (eng0 [] [] syn3) syn3 [] ∧ 4294967283 ≤ Config.chosen.maxInLen ∧
      4294967295 < 13 + 4294967283 ∧ 4294967282 < 4294967283 ∧
      Instr.encodeAck 5 4294967283 ∈
        [Instr.encodeData 5 4294967283, Instr.encodeAck 5 4294967283, Instr.encodeSyn 5 4294967283] :=
  ⟨busy_atTurn _ _ _, by decide, by decide, by decide, by simp⟩

theorem witness_EncodeBoundaryLengths :
    (busyState [] [] syn3).AtTurn 0 (eng0 [] [] syn3) syn3 [] ∧ (space []).wf ∧
      4294967282 ≤ Config.chosen.maxInLen ∧ 4294967283 ≤ Config.chosen.maxInLen ∧ 4294967296 ≤ Config.chosen.maxInLen :=
  ⟨busy_atTurn _ _ _, space_wf _, by decide, by decide, by decide⟩

theorem witness_EncodeAgreesWithThePureFunction :
    (busyState [] [] syn3).AtTurn 0 (eng0 [] [] syn3) syn3 [] ∧ (space []).wf ∧ 4294967296 ≤ Config.chosen.maxInLen :=
  ⟨busy_atTurn _ _ _, space_wf _, by decide⟩

theorem witness_DecodeRejectsShortBuffers :
    recv.AtTurn 0 (eng0 frameL1 [0xEE#8] dec16) dec16 [] ∧ 3 ≤ Config.chosen.maxInLen ∧ 3 < 4 :=
  ⟨busy_atTurn _ _ _, by decide, by decide⟩

/-- Declared 12 and declared 16 with 15 bytes. -/
theorem witness_DecodeRejectsInvalidTotalLen :
    recv.AtTurn 0 (eng0 frameL1 [0xEE#8] dec16) dec16 [] ∧ 15 ≤ Config.chosen.maxInLen ∧ 4 ≤ 15 ∧
      15 < beNat ((space frameL1).readN 0 4) ∧ beNat ((space [0x00#8, 0x00#8, 0x00#8, 0x0C#8]).readN 0 4) < 13 :=
  ⟨busy_atTurn _ _ _, by decide, by decide, by decide, by decide⟩

/-- Every clause: the tags 0, 1, 2, 3 and 255 behind a valid length of 13. -/
theorem witness_DecodeMapsTheTypeByte (t : Byte) (ht : t ∈ [0x00#8, 0x01#8, 0x02#8, 0x03#8, 0xFF#8]) :
    let b := [0x00#8, 0x00#8, 0x00#8, 0x0D#8, t] ++ zeros8
    (busyState b [] dec16).AtTurn 0 (eng0 b [] dec16) dec16 [] ∧ 13 ≤ Config.chosen.maxInLen ∧
      13 ≤ beNat ((space b).readN 0 4) ∧ beNat ((space b).readN 0 4) ≤ 13 ∧ (space b).read 4 = t := by
  refine ⟨busy_atTurn _ _ _, by decide, ?_⟩
  revert t
  decide

theorem witness_DecodeReturnsTheSegment :
    recv.AtTurn 0 (eng0 frameL1 [0xEE#8] dec16) dec16 [] ∧ (space [0xEE#8]).wf ∧ 16 ≤ Config.chosen.maxInLen ∧
      13 ≤ beNat ((space frameL1).readN 0 4) ∧ beNat ((space frameL1).readN 0 4) ≤ 16 ∧
      (space frameL1).read 4 = Kind.syn.tag :=
  ⟨busy_atTurn _ _ _, space_wf _, by decide, by decide, by decide, by decide⟩

theorem witness_DecodeAgreesWithThePureFunction :
    recv.AtTurn 0 (eng0 frameL1 [0xEE#8] dec16) dec16 [] ∧ (space [0xEE#8]).wf ∧ 16 ≤ Config.chosen.maxInLen :=
  ⟨busy_atTurn _ _ _, space_wf _, by decide⟩

/-- D-14: two trailing bytes; and another IN that agrees on the first 16 bytes. -/
theorem witness_DecodeIgnoresTrailingBytes :
    let b := frameL1 ++ [0xAA#8, 0xBB#8]
    (busyState b [] dec16).AtTurn 0 (eng0 b [] dec16) dec16 [] ∧
      exec (.decode 0b00#2 18) (busyState b [] dec16) = .next ((busyState b [] dec16).answered 0 (eng0 b [] dec16) []
        (space [0x11#8, 0x22#8, 0x33#8]) (.okDecode .syn 12345 3)) ∧
      (space (frameL1 ++ [0xCC#8])).readN 0 (13 + 3) = (space b).readN 0 (13 + 3) :=
  ⟨busy_atTurn _ _ _, eq_next (by decide), by decide⟩

theorem witness_DecodeOfFourToTwelveBytesIsInvalid :
    recv.AtTurn 0 (eng0 frameL1 [0xEE#8] dec16) dec16 [] ∧ 12 ≤ Config.chosen.maxInLen ∧ 4 ≤ 4 ∧ 4 ≤ 12 ∧ 12 ≤ 12 :=
  ⟨busy_atTurn _ _ _, by decide, by decide, by decide, by decide⟩

/-- Clause by clause: a buffer of 3 bytes; total_len 12, and 17 of 16; tag 3; tag 1, all with 16 bytes but the first. -/
theorem witness_HeaderWordIsDecoded :
    recv.AtTurn 0 (eng0 frameL1 [0xEE#8] dec16) dec16 [] ∧ opBit dec16.cmd = true ∧ (space frameL1).wf ∧
      (space [0xEE#8]).wf ∧ dec16.len ≤ Config.chosen.maxInLen ∧
      (busyState [] [] ⟨0b001#3, 0, 3⟩).AtTurn 0 (eng0 [] [] ⟨0b001#3, 0, 3⟩) ⟨0b001#3, 0, 3⟩ [] ∧
      4 ≤ dec16.len ∧ (12#32).toNat < 13 ∧ dec16.len < (17#32).toNat ∧ 13 ≤ (13#32).toNat ∧ (16#32).toNat ≤ dec16.len ∧
      3 ≤ (0x03#8).toNat ∧ 0x01#8 = Kind.ack.tag :=
  ⟨busy_atTurn _ _ _, by decide, space_wf _, space_wf _, by decide, busy_atTurn _ _ _, by decide, by decide, by decide,
    by decide, by decide, by decide, by decide⟩

theorem witness_KindTagWordsAreDecoded :
    recv.AtTurn 0 (eng0 frameL1 [0xEE#8] dec16) dec16 [] ∧ opBit dec16.cmd = true ∧ (space frameL1).wf ∧
      (space [0xEE#8]).wf ∧ dec16.len ≤ Config.chosen.maxInLen ∧ 13 ≤ beNat ((space frameL1).readN 0 4) ∧
      beNat ((space frameL1).readN 0 4) ≤ dec16.len ∧
      (Instr.tagAck, Kind.ack) ∈ [(Instr.tagData, Kind.data), (Instr.tagAck, Kind.ack), (Instr.tagSyn, Kind.syn)] :=
  ⟨busy_atTurn _ _ _, by decide, space_wf _, space_wf _, by decide, by decide, by decide, by decide⟩

theorem witness_ReservedTagWordIsUnknownType :
    recv.AtTurn 0 (eng0 frameL1 [0xEE#8] dec16) dec16 [] ∧ opBit dec16.cmd = true ∧ (space frameL1).wf ∧
      dec16.len ≤ Config.chosen.maxInLen ∧ 13 ≤ beNat ((space frameL1).readN 0 4) ∧
      beNat ((space frameL1).readN 0 4) ≤ dec16.len ∧ 3 ≤ (0x03#8).toNat ∧ 3 ≤ (0xFF#8).toNat :=
  ⟨busy_atTurn _ _ _, by decide, space_wf _, by decide, by decide, by decide, by decide, by decide⟩

/-- A 3-byte buffer; a 15-byte buffer that declares 16; a 16-byte buffer that declares 0. -/
theorem witness_TagWordsReportTheLengthFirst :
    (busyState frameL1 [] ⟨0b001#3, 0, 3⟩).AtTurn 0 (eng0 frameL1 [] ⟨0b001#3, 0, 3⟩) ⟨0b001#3, 0, 3⟩ [] ∧
      (busyState frameL1 [] ⟨0b001#3, 0, 15⟩).AtTurn 0 (eng0 frameL1 [] ⟨0b001#3, 0, 15⟩) ⟨0b001#3, 0, 15⟩ [] ∧
      (busyState [] [] dec16).AtTurn 0 (eng0 [] [] dec16) dec16 [] ∧ opBit dec16.cmd = true ∧
      dec16.len ≤ Config.chosen.maxInLen ∧ 15 < beNat ((space frameL1).readN 0 4) ∧ beNat ((space []).readN 0 4) < 13 ∧
      Instr.tagReserved 0x07#8 ∈ [Instr.tagData, Instr.tagAck, Instr.tagSyn, Instr.tagReserved 0x07#8] :=
  ⟨busy_atTurn _ _ _, busy_atTurn _ _ _, busy_atTurn _ _ _, by decide, by decide, by decide, by decide, by decide⟩

theorem witness_WireWordsNeedADecodeRequest :
    (busyState [] [] syn3).AtTurn 0 (eng0 [] [] syn3) syn3 [] ∧ opBit syn3.cmd = false ∧
      Instr.tagData ∈ [Instr.frameHeader 0 0 0, Instr.tagData, Instr.tagAck, Instr.tagSyn, Instr.tagReserved 0x03#8] :=
  ⟨busy_atTurn _ _ _, by decide, by decide⟩

theorem witness_DecodeOfEncodeIsTheSegment :
    (Segment.mk .data 0 []).payload.length ≤ 4294967282 ∧
      (Segment.mk .syn 0 (List.replicate 4294967282 0)).payload.length ≤ 4294967282 :=
  ⟨by decide, (List.length_replicate ..).le⟩

theorem witness_EncodedLengthFieldIsTheFrameLength :
    encodeSegment ⟨.syn, 12345, [0x11#8, 0x22#8, 0x33#8]⟩ = .ok frameL1 := by decide

theorem witness_InconsistentLengthIsRejected :
    4 ≤ [0x00#8, 0x00#8, 0x00#8, 0x0D#8].length ∧
      [0x00#8, 0x00#8, 0x00#8, 0x0D#8].length < beNat ([0x00#8, 0x00#8, 0x00#8, 0x0D#8].take 4) ∧
      beNat ([0x00#8, 0x00#8, 0x00#8, 0x0C#8].take 4) < 13 := by decide

theorem witness_UnknownTagIsRejected :
    13 ≤ badTag.length ∧ 13 ≤ beNat (badTag.take 4) ∧ beNat (badTag.take 4) ≤ badTag.length ∧
      3 ≤ (badTag.getD 4 0).toNat ∧ zeros8.length = 8 := by decide

theorem witness_EncodeOfDecodeIsTheFramePart :
    decodeBuffer (frameL1 ++ [0xAA#8, 0xBB#8]) = .ok ⟨.syn, 12345, [0x11#8, 0x22#8, 0x33#8]⟩ := by decide

theorem witness_EncodeIsInjective :
    encodeSegment ⟨.syn, 12345, [0x11#8, 0x22#8, 0x33#8]⟩ = .ok frameL1 := by decide

theorem witness_EveryInstructionWritesOnlyItsOwnResult : ∃ s', exec (.decode 0b00#2 16) recv = .next s' :=
  ⟨recv.answered 0 (eng0 frameL1 [0xEE#8] dec16) [] (space [0x11#8, 0x22#8, 0x33#8]) (.okDecode .syn 12345 3),
    eq_next (by decide)⟩

theorem witness_CommandsRaiseOnlyTheirOwnErrors :
    recv.AtTurn 0 (eng0 frameL1 [0xEE#8] dec16) dec16 [] ∧ ∃ s', exec (.tagReserved 0xFF#8) recv = .next s' :=
  ⟨busy_atTurn _ _ _, recv.answered 0 (eng0 frameL1 [0xEE#8] dec16) [] (space [0xEE#8]) (.errUnknownType 0xFF#8),
    eq_next (by decide)⟩

/-- Two states that agree on the frame's 16 bytes of IN and on nothing else. -/
theorem witness_AnswersDependOnTheRequestAndItsBytesOnly :
    recv.AtTurn 0 (eng0 frameL1 [0xEE#8] dec16) dec16 [] ∧
      (busyState (frameL1 ++ [0xAA#8]) [] syn3).AtTurn 0 (eng0 (frameL1 ++ [0xAA#8]) [] syn3) syn3 [] ∧
      (space [0xEE#8]).wf ∧ (space []).wf ∧ 16 ≤ Config.chosen.maxInLen ∧
      (space frameL1).readN 0 16 = (space (frameL1 ++ [0xAA#8])).readN 0 16 ∧
      Instr.decode 0b00#2 16 ∈ [Instr.encodeData 0 16, Instr.encodeAck 0 16, Instr.encodeSyn 0 16, Instr.decode 0b00#2 16] ∧
      exec (.decode 0b00#2 16) recv = .next (recv.answered 0 (eng0 frameL1 [0xEE#8] dec16) []
        (space [0x11#8, 0x22#8, 0x33#8]) (.okDecode .syn 12345 3)) :=
  ⟨busy_atTurn _ _ _, busy_atTurn _ _ _, space_wf _, space_wf _, by decide, by decide, by decide, eq_next (by decide)⟩

theorem witness_CommandsAreIdempotent :
    recv.AtTurn 0 (eng0 frameL1 [0xEE#8] dec16) dec16 [] ∧ (space [0xEE#8]).wf ∧
      exec (.decode 0b00#2 16) recv = .next (recv.answered 0 (eng0 frameL1 [0xEE#8] dec16) []
        (space [0x11#8, 0x22#8, 0x33#8]) (.okDecode .syn 12345 3)) :=
  ⟨busy_atTurn _ _ _, space_wf _, eq_next (by decide)⟩

/-- Program P4's two engines, both BUSY. -/
def twoBusy : State where
  cfg := Config.chosen
  engines := [⟨.busy ⟨0b010#3, 0xFFFFFFFFFFFFFFFF, 1⟩, space [0xAB#8], space []⟩, ⟨.busy dec16, space [0x80#8], space []⟩]
  agenda := [.execute 0, .execute 1]
  delivered := []

theorem witness_ExecuteStepsOfTwoEnginesCommute :
    (0 : Nat) ≠ 1 ∧ twoBusy.agenda = [.execute 0, .execute 1] ∧
      twoBusy.engines[0]? = some ⟨.busy ⟨0b010#3, 0xFFFFFFFFFFFFFFFF, 1⟩, space [0xAB#8], space []⟩ ∧
      (⟨0b010#3, 0xFFFFFFFFFFFFFFFF, 1⟩ : Request).refusal? twoBusy.cfg = none ∧
      twoBusy.engines[1]? = some ⟨.busy dec16, space [0x80#8], space []⟩ ∧ dec16.refusal? twoBusy.cfg = none := by decide

theorem witness_AdmittedRequestsEndInAResponse :
    recv.AtTurn 0 (eng0 frameL1 [0xEE#8] dec16) dec16 [] ∧ dec16.refusal? recv.cfg = none :=
  ⟨busy_atTurn _ _ _, by decide⟩

/-- A line of 5 bytes for an IN of 4, with another line issued together with it. -/
theorem witness_RefusedRequestsNeverAnswer_line :
    let ls := [⟨0, .decode, .rep 5 0x00#8⟩, ⟨1, .decode, .lit []⟩]
    (smallIn [.lines ls [0, 1]]).agenda = [.lines ls [0, 1]] ∧
      (smallIn [.lines ls [0, 1]]).engines[0]? = some Engine.afterReset ∧ Engine.afterReset.phase = .idle ∧
      (HostBytes.rep 5 0x00#8).eval none = some (List.replicate 5 0x00#8) ∧
      (smallIn []).cfg.maxInLen < (List.replicate 5 0x00#8).length ∧
      (HostBytes.lit []).eval none ≠ none := by decide

/-- A reserved word and a length just over MAX_IN_LEN, at the issue and at the execute step. -/
theorem witness_RefusedRequestsNeverAnswer (r : Request)
    (hr : r ∈ [(⟨0b110#3, 0, 0⟩ : Request), ⟨0b001#3, 0, 4294967297⟩]) :
    (r.cmd = 0b110#3 ∨ Config.chosen.maxInLen < r.len) ∧ (busyState [] [] r).AtTurn 0 (eng0 [] [] r) r [] ∧
      (busyState [] [] r).engines[1]? = some ⟨.idle, space [], space []⟩ ∧
      ((busyState [] [] r).setAgenda [.issue 1 r]).agenda = [.issue 1 r] := by
  refine ⟨?_, busy_atTurn _ _ _, rfl, rfl⟩
  revert r
  decide

/-- The DONE engine of a DECODE that met a reserved tag. -/
theorem witness_ResponseFieldsFitTheirWidths :
    recv.cfg.wf ∧ recv.AtTurn 0 (eng0 frameL1 [0xEE#8] dec16) dec16 [] ∧
      exec (.tagReserved 0x03#8) recv
        = .next (recv.answered 0 (eng0 frameL1 [0xEE#8] dec16) [] (space [0xEE#8]) (.errUnknownType 0x03#8)) ∧
      (recv.answered 0 (eng0 frameL1 [0xEE#8] dec16) [] (space [0xEE#8]) (.errUnknownType 0x03#8)).engines[0]?
        = some ⟨.done (.errUnknownType 0x03#8), space frameL1, space [0xEE#8]⟩ :=
  ⟨by decide, busy_atTurn _ _ _, eq_next (by decide), rfl⟩

theorem witness_ErrorsLeaveNoTrace :
    let s := recv.setAgenda [.execute 0, .take 0]
    s.AtTurn 0 (eng0 frameL1 [0xEE#8] dec16) dec16 [.take 0] ∧
      exec (.decode 0b00#2 3) s
        = .next (s.answered 0 (eng0 frameL1 [0xEE#8] dec16) [.take 0] (space [0xEE#8]) .errTooShort) ∧
      (s.answered 0 (eng0 frameL1 [0xEE#8] dec16) [.take 0] (space [0xEE#8]) .errTooShort).engines[0]?
        = some ⟨.done .errTooShort, space frameL1, space [0xEE#8]⟩ ∧ Response.errTooShort.ok = false :=
  ⟨⟨rfl, rfl, rfl⟩, eq_next (by decide), rfl, rfl⟩

/-- Engine 0 DONE with a frame in OUT, engine 1 IDLE. -/
def doneState (ms : List Move) : State where
  cfg := Config.chosen
  engines := [⟨.done (.okEncode 16), space [], space frameL1⟩, ⟨.idle, space [], space []⟩]
  agenda := ms
  delivered := []

/-- IDLE engine 1 with an admitted request; DONE engine 0. -/
theorem witness_IssueMakesAnIdleEngineBusy :
    (doneState [.issue 1 dec16]).engines[1]? = some ⟨.idle, space [], space []⟩ ∧
      dec16.refusal? (doneState []).cfg = none ∧
      (doneState [.issue 0 dec16]).engines[0]? = some ⟨.done (.okEncode 16), space [], space frameL1⟩ ∧
      Phase.done (.okEncode 16) ≠ .idle := by decide

theorem witness_TakeDeliversTheResponse :
    (doneState [.take 0]).engines[0]? = some ⟨.done (.okEncode 16), space [], space frameL1⟩ ∧
      (doneState [.take 1]).engines[1]? = some ⟨.idle, space [], space []⟩ ∧ ∀ r, Phase.idle ≠ .done r := by
  refine ⟨by decide, by decide, fun r h => by cases h⟩

/-- A BUSY engine; a DONE engine and one byte too many; a DONE engine and the last offset of IN. -/
theorem witness_HostWriteChangesExactlyItsBytesOfIn :
    recv.engines[0]? = some (eng0 frameL1 [0xEE#8] dec16) ∧
      (doneState [.write 0 4294967296 [0x00#8]]).engines[0]? = some ⟨.done (.okEncode 16), space [], space frameL1⟩ ∧
      (∀ r, Phase.done (.okEncode 16) ≠ .busy r) ∧ Config.chosen.maxInLen < 4294967296 + 1 ∧
      4294967295 + 1 ≤ Config.chosen.maxInLen ∧ (space []).wf :=
  ⟨rfl, rfl, (fun r h => by cases h), by decide, by decide, space_wf _⟩

/-- Two lines with `OUT` of a delivered frame, and their agenda; a DONE and a BUSY engine; a line whose `OUT` cannot be read. -/
theorem witness_ProgramLineIsAssembled :
    let ls := [⟨0, .decode, .cat .out (.lit [0xAA#8])⟩, ⟨1, .encode .syn 7, .rep 2 0x00#8⟩]
    let s := (doneState [.lines ls [1, 0], .take 0]).deliver ⟨0, .okEncode 16, frameL1⟩
    let bad := doneState [.lines ls [0, 1]]
    ls.map (fun l => l.bytes.eval (previousOut s l.engine)) = [frameL1 ++ [0xAA#8], [0x00#8, 0x00#8]].map some ∧
      (nextOf (step s)).map State.agenda = some [.write 0 0 (frameL1 ++ [0xAA#8]), .issue 0 ⟨0b001#3, 0, 17⟩,
        .write 1 0 [0x00#8, 0x00#8], .issue 1 ⟨0b100#3, 7, 2⟩, .execute 1, .execute 0, .take 0, .take 1, .take 0] ∧
      (s.observation 0).getLast? = some (.okEncode 16, frameL1) ∧ (Response.okEncode 16).ok = true ∧
      s.engines[0]? = some ⟨.done (.okEncode 16), space [], space frameL1⟩ ∧
      recv.engines[0]? = some (eng0 frameL1 [0xEE#8] dec16) ∧ (eng0 frameL1 [0xEE#8] dec16).phase = .busy dec16 ∧
      (∃ l ∈ ls, l.bytes.eval (previousOut bad l.engine) = none) ∧ bad.observation 0 = [] ∧
      faultOf (step bad) = some .outNotReadable := by decide

theorem witness_PhasesChangeOnlyAlongTheThreeTransitions :
    step (doneState [.take 0]) = .next (((doneState []).setEngine 0 ⟨.idle, space [], space frameL1⟩).deliver
      ⟨0, .okEncode 16, frameL1⟩) ∧
      (doneState [.take 0]).engines[0]? = some ⟨.done (.okEncode 16), space [], space frameL1⟩ :=
  ⟨eq_next (by decide), rfl⟩

theorem witness_BytesChangeOnlyByTheirOwner :
    step (doneState [.write 0 0 [0x07#8]]) = .next ((doneState []).setEngine 0
      ⟨.done (.okEncode 16), space [0x07#8], space frameL1⟩) ∧
      (doneState [.write 0 0 [0x07#8]]).engines[0]? = some ⟨.done (.okEncode 16), space [], space frameL1⟩ :=
  ⟨eq_next (by decide), rfl⟩

theorem witness_IdleBlockDoesNothing :
    (doneState []).agenda = [] ∧ (∀ g ∈ (doneState []).engines, ∀ q, g.phase ≠ .busy q) ∧ State.reset.finished := by
  refine ⟨rfl, ?_, rfl, ?_⟩
  · simp [doneState]
  · intro g hg
    rw [List.eq_of_mem_replicate hg]
    rfl

/-- `doneState` and `twoBusy` meet the invariant. -/
theorem done_inv (ms : List Move) : (doneState ms).Inv := by
  refine ⟨show Config.chosen.wf by decide, rfl, fun g hg => ?_, by simp [doneState]⟩
  show g.wf Config.chosen
  rcases List.mem_cons.mp hg with rfl | hg
  · exact ⟨by decide, by decide, by decide, by decide, by decide, by decide, by decide⟩
  · rcases List.mem_cons.mp hg with rfl | hg
    · exact ⟨by decide, by decide, by decide, by decide, trivial⟩
    · cases hg

theorem witness_EveryBusyEngineExecutes : (twoBusy.setAgenda []).Inv ∧ (twoBusy.setAgenda []).agenda = [] := by
  refine ⟨⟨by decide, rfl, fun g hg => ?_, by simp [twoBusy]⟩, rfl⟩
  rcases List.mem_cons.mp hg with rfl | hg
  · exact ⟨by decide, by decide, by decide, by decide, rfl⟩
  · rcases List.mem_cons.mp hg with rfl | hg
    · exact ⟨by decide, by decide, by decide, by decide, rfl⟩
    · cases hg

theorem witness_ResetMakesEveryEngineIdle :
    (twoBusy.setAgenda [.reset [⟨[(3, 0x07#8)], []⟩]]).agenda = [.reset [⟨[(3, 0x07#8)], []⟩]] := rfl

/-- Contents for both engines, and for engine 0 only. -/
theorem witness_ResetCanLeaveAnyContents :
    (∀ w ∈ [(frameL1, zeros8), ([0xAB#8], [0xCD#8])],
        w.1.length ≤ State.reset.cfg.maxInLen ∧ w.2.length ≤ State.reset.cfg.maxOutLen) ∧
      1 < State.reset.engines.length ∧ [(frameL1, zeros8), ([0xAB#8], [0xCD#8])][1]? = some ([0xAB#8], [0xCD#8]) ∧
      [(frameL1, zeros8)].length ≤ 1 ∧ State.reset.engines[1]? = some Engine.afterReset := by decide

theorem witness_StepKeepsTheInvariant : (doneState [.take 0]).Inv ∧ ∃ s', step (doneState [.take 0]) = .next s' :=
  ⟨done_inv _, _, witness_PhasesChangeOnlyAlongTheThreeTransitions.1⟩

theorem witness_StepKeepsEveryEncodedFrameValid :
    (doneState [.take 0]).Inv ∧ (doneState [.take 0]).FramesValid ∧ ∃ s', step (doneState [.take 0]) = .next s' := by
  refine ⟨done_inv _, ⟨fun g hg n hn => ?_, by simp [doneState]⟩, _, witness_PhasesChangeOnlyAlongTheThreeTransitions.1⟩
  rcases List.mem_cons.mp hg with rfl | hg
  · cases hn
    exact ⟨by decide, by decide, ⟨.syn, 12345, [0x11#8, 0x22#8, 0x33#8]⟩, by decide⟩
  · rcases List.mem_cons.mp hg with rfl | hg
    · cases hn
    · cases hg

theorem witness_CanonicalSpacesWithEqualBytesAreEqual : (space frameL1).wf ∧ ∀ a, (space frameL1).read a = (space frameL1).read a :=
  ⟨space_wf _, fun _ => rfl⟩

theorem witness_EncodeThenDecodeProgramReturnsTheSegment :
    let ms := [Move.lines [⟨1, .encode .ack 7, .lit [0xAB#8]⟩] [1], .lines [⟨1, .decode, .out⟩] [1]]
    (doneState ms).Inv ∧ (doneState ms).engines[1]? = some ⟨.idle, space [], space []⟩ ∧
      13 + [0xAB#8].length ≤ (doneState ms).cfg.maxInLen ∧ [0xAB#8].length ≤ maxPayloadLen ∧ (doneState ms).agenda = ms :=
  ⟨done_inv _, rfl, by decide, by decide, rfl⟩

end Sys2Proof.Tests
end

section
/-! ## 00_scope: big-endian bytes and values (R6) -/

namespace Sys2Proof

theorem beNat_lt (b : List Byte) : beNat b < 256 ^ b.length := by
  induction b with
  | nil => simp [beNat]
  | cons x xs ih =>
    have hx : x.toNat + 1 ≤ 256 := x.isLt
    calc x.toNat * 256 ^ xs.length + beNat xs
        < (x.toNat + 1) * 256 ^ xs.length := by rw [Nat.succ_mul]; omega
      _ ≤ 256 * 256 ^ xs.length := Nat.mul_le_mul_right _ hx
      _ = 256 ^ (x :: xs).length := by rw [List.length_cons, Nat.pow_succ']

theorem beNat_eq_sum (b : List Byte) :
    beNat b = ∑ i ∈ Finset.range b.length, (b.getD i 0).toNat * 256 ^ (b.length - 1 - i) := by
  induction b with
  | nil => rfl
  | cons x xs ih =>
    rw [List.length_cons, Finset.sum_range_succ', beNat, ih, Nat.add_comm]
    congr 1
    refine Finset.sum_congr rfl fun i _ => ?_
    rw [List.getD_cons_succ, show xs.length + 1 - 1 - (i + 1) = xs.length - 1 - i by omega]

/-- Whatever stands above the buffer's value in the number is cut off. -/
theorem bytesBE_add_beNat (b : List Byte) (k : Nat) : bytesBE b.length (k * 256 ^ b.length + beNat b) = b := by
  induction b generalizing k with
  | nil => rfl
  | cons x xs ih =>
    have hv : k * 256 ^ (xs.length + 1) + (x.toNat * 256 ^ xs.length + beNat xs)
        = (k * 256 + x.toNat) * 256 ^ xs.length + beNat xs := by ring
    have hq : ((k * 256 + x.toNat) * 256 ^ xs.length + beNat xs) / 256 ^ xs.length = k * 256 + x.toNat := by
      rw [Nat.mul_comm, Nat.mul_add_div (by positivity), Nat.div_eq_of_lt (beNat_lt xs), Nat.add_zero]
    have hx : BitVec.ofNat 8 (k * 256 + x.toNat) = x := by
      apply BitVec.eq_of_toNat_eq
      have := x.isLt
      rw [BitVec.toNat_ofNat]
      omega
    rw [List.length_cons, beNat, bytesBE, hv, hq, hx, ih]

theorem bytesBE_beNat (b : List Byte) : bytesBE b.length (beNat b) = b := by
  simpa using bytesBE_add_beNat b 0

theorem beNat_bytesBE (n v : Nat) : beNat (bytesBE n v) = v % 256 ^ n := by
  induction n with
  | zero => simp [bytesBE, beNat, Nat.mod_one]
  | succ n ih =>
    rw [bytesBE, beNat, Machine.length_bytesBE, ih, BitVec.toNat_ofNat, Nat.mod_pow_succ (b := 256),
      Nat.mul_comm, Nat.add_comm]

/-- Settles O7: the sum and the inverse by induction on the buffer, the value of `bytesBE` by induction on its length. -/
theorem bigEndianBytesAndValuesAgree : Obligations.BigEndianBytesAndValuesAgree := by
  refine ⟨fun b => ⟨beNat_eq_sum b, beNat_lt b, bytesBE_beNat b⟩, fun n v hv => ⟨Machine.length_bytesBE n v, ?_⟩,
    by decide, by decide⟩
  rw [beNat_bytesBE, Nat.mod_eq_of_lt hv]

end Sys2Proof
end

section
/-! ## 00_scope: canonical spaces (R4, R29) -/

namespace Sys2Proof.Machine

/-- A byte that differs from an unlisted one is listed. -/
theorem mem_of_cellAt_ne {cs : List Host.Cell} {a : Nat} (h : cellAt cs a ≠ unlistedByte) : (a, cellAt cs a) ∈ cs := by
  induction cs with
  | nil => exact absurd rfl h
  | cons c cs ih =>
    unfold cellAt at h ⊢
    by_cases hac : a = c.1
    · rw [if_pos hac, hac]
      exact List.mem_cons_self
    · rw [if_neg hac] at h ⊢
      exact List.mem_cons_of_mem _ (ih h)

/-- In a list with rising offsets each listed cell is the one that is read. -/
theorem cellAt_of_mem {cs : List Host.Cell} (hs : cs.Pairwise (fun c d => c.1 < d.1)) {c : Host.Cell} (h : c ∈ cs) :
    cellAt cs c.1 = c.2 := by
  induction cs with
  | nil => cases h
  | cons d cs ih =>
    obtain ⟨hd, hcs⟩ := List.pairwise_cons.mp hs
    rcases List.mem_cons.mp h with rfl | h
    · exact if_pos rfl
    · exact (if_neg (hd c h).ne').trans (ih hcs h)

/-- The cells a canonical space lists are the bytes it reads that differ from an unlisted one. -/
theorem Memory.mem_cells_iff {m : Memory} (h : m.wf) (c : Host.Cell) :
    c ∈ m.cells ↔ m.read c.1 = c.2 ∧ c.2 ≠ unlistedByte := by
  constructor
  · exact fun hc => ⟨cellAt_of_mem h.1 hc, h.2 c hc⟩
  · rintro ⟨hr, hn⟩
    have := mem_of_cellAt_ne (hr ▸ hn : m.read c.1 ≠ unlistedByte)
    rwa [show cellAt m.cells c.1 = c.2 from hr] at this

/-- A canonical space is determined by what it reads (R4, R29). -/
theorem Memory.ext_of_read {m m' : Memory} (h : m.wf) (h' : m'.wf) (hr : ∀ a, m.read a = m'.read a) : m = m' := by
  have hmem : ∀ c, c ∈ m.cells ↔ c ∈ m'.cells := fun c => by
    rw [Memory.mem_cells_iff h, Memory.mem_cells_iff h', hr]
  have : Std.Irrefl (fun c d : Host.Cell => c.1 < d.1) := ⟨fun c => Nat.lt_irrefl c.1⟩
  have hc : m.cells = m'.cells := h.1.eq_of_mem_iff h'.1 hmem
  cases m; cases m'; cases hc; rfl

/-- Settles O59: two canonical spaces that read the same list the same cells, in the same rising order. -/
theorem canonicalSpacesWithEqualBytesAreEqual : Obligations.CanonicalSpacesWithEqualBytesAreEqual :=
  fun _ _ => Memory.ext_of_read

end Sys2Proof.Machine
end

section
/-! ## 00_scope: the state after reset (R122) -/

namespace Sys2Proof.Machine

theorem Engine.wf_afterReset (c : Config) : Engine.afterReset.wf c :=
  ⟨⟨.nil, nofun⟩, nofun, ⟨.nil, nofun⟩, nofun, trivial⟩

/-- Settles O56: every engine is IDLE with nothing listed in its spaces, and nothing is delivered. -/
theorem theInvariantHoldsAtReset : Obligations.TheInvariantHoldsAtReset := by
  have hEng : ∀ g ∈ State.reset.engines, g = Engine.afterReset := fun g hg => List.eq_of_mem_replicate hg
  refine ⟨⟨?_, ?_, fun g hg => ?_, by simp⟩, fun g hg n hn => ?_, by simp⟩
  · show Config.chosen.wf
    decide
  · rfl
  · exact hEng g hg ▸ Engine.wf_afterReset _
  · rw [hEng g hg] at hn
    cases hn

end Sys2Proof.Machine
end

section
/-! ## 00_scope: what a step that answers a next state can do, said once -/

namespace Sys2Proof.Machine

/-- The instruction of a request: ENCODE of one of the three kinds, DECODE, or the reserved word (R63). -/
theorem Request.instr_cases (r : Request) :
    (∃ kind, r.instr = encodeOf kind r.seq r.len) ∨ (∃ bits, r.instr = .decode bits r.len) ∨
      r.instr = .reservedEncodeKind3 r.seq r.len := by
  unfold Request.instr decodeCommand
  split
  · exact .inr (.inl ⟨_, rfl⟩)
  · split
    · exact .inl ⟨.data, rfl⟩
    · split
      · exact .inl ⟨.ack, rfl⟩
      · split
        · exact .inl ⟨.syn, rfl⟩
        · exact .inr (.inr rfl)

/-- The three ENCODE commands run the one pseudocode of R68. -/
theorem exec_encodeOf (kind : Kind) (seq : Seq) (plen : Nat) (s : State) :
    exec (encodeOf kind seq plen) s = atTurn s (runEncode kind seq plen s) := by
  cases kind <;> rfl

/-- What an engine can answer to a request, from the contents of its spaces: the OUT it leaves and the response (R68, R80). -/
inductive Answer (c : Config) (g : Engine) (req : Request) : Memory → Response → Prop
  | totalLenOverflow (kind : Kind) (hi : req.instr = encodeOf kind req.seq req.len) (hl : req.len ≤ c.maxInLen)
      (ht : maxTotalLen < 13 + req.len) : Answer c g req g.outMem (.errTotalLenOverflow (13 + req.len))
  | encoded (kind : Kind) (hi : req.instr = encodeOf kind req.seq req.len) (hl : req.len ≤ c.maxInLen)
      (ht : 13 + req.len ≤ maxTotalLen) :
      Answer c g req (writeFrame g.outMem kind req.seq (g.inMem.readN 0 req.len)) (.okEncode (13 + req.len))
  | tooShort (bits : BitVec 2) (hi : req.instr = .decode bits req.len) (hl : req.len ≤ c.maxInLen) (hs : req.len < 4) :
      Answer c g req g.outMem .errTooShort
  | invalidTotalLen (bits : BitVec 2) (hi : req.instr = .decode bits req.len) (hl : req.len ≤ c.maxInLen)
      (hs : 4 ≤ req.len) (ht : (totalLenAt g.inMem).toNat < 13 ∨ req.len < (totalLenAt g.inMem).toNat) :
      Answer c g req g.outMem (.errInvalidTotalLen (totalLenAt g.inMem) req.len)
  | unknownType (bits : BitVec 2) (hi : req.instr = .decode bits req.len) (hl : req.len ≤ c.maxInLen)
      (h13 : 13 ≤ (totalLenAt g.inMem).toNat) (ht : (totalLenAt g.inMem).toNat ≤ req.len)
      (hk : kindOfTag (g.inMem.read 4) = none) : Answer c g req g.outMem (.errUnknownType (g.inMem.read 4))
  | decoded (bits : BitVec 2) (kind : Kind) (hi : req.instr = .decode bits req.len) (hl : req.len ≤ c.maxInLen)
      (h13 : 13 ≤ (totalLenAt g.inMem).toNat) (ht : (totalLenAt g.inMem).toNat ≤ req.len)
      (hk : kindOfTag (g.inMem.read 4) = some kind) :
      Answer c g req (g.outMem.writeN 0 (g.inMem.readN 13 ((totalLenAt g.inMem).toNat - 13)))
        (.okDecode kind (seqAt g.inMem) ((totalLenAt g.inMem).toNat - 13))

/-- An ENCODE that answers a next state gives one of ENCODE's answers. -/
theorem runEncode_answer {kind : Kind} {s s' : State} {t : Turn} (hi : t.req.instr = encodeOf kind t.req.seq t.req.len)
    (h : runEncode kind t.req.seq t.req.len s t = .next s') :
    ∃ out r, Answer s.cfg t.eng t.req out r ∧ s' = s.answered t.engine t.eng t.rest out r := by
  rcases runEncode_cases kind t.req.seq t.req.len s t with ⟨-, hx⟩ | ⟨hl, ht, hx⟩ | ⟨hl, ht, hx⟩ <;>
    rw [hx] at h
  · cases h
  · exact ⟨_, _, .totalLenOverflow kind hi hl ht, (Host.Outcome.next.inj h).symm⟩
  · exact ⟨_, _, .encoded kind hi hl ht, (Host.Outcome.next.inj h).symm⟩

/-- A DECODE that answers a next state gives one of DECODE's answers. -/
theorem runDecode_answer {bits : BitVec 2} {s s' : State} {t : Turn} (hi : t.req.instr = .decode bits t.req.len)
    (h : runDecode t.eng.inMem t.req.len s t = .next s') :
    ∃ out r, Answer s.cfg t.eng t.req out r ∧ s' = s.answered t.engine t.eng t.rest out r := by
  rcases runDecode_cases t.eng.inMem t.req.len s t with
    ⟨-, hx⟩ | ⟨hl, hs, hx⟩ | ⟨hl, hs, ht, hx⟩ | ⟨hl, h13, ht, hk, hx⟩ | ⟨kind, hl, h13, ht, hk, hx⟩ <;> rw [hx] at h
  · cases h
  · exact ⟨_, _, .tooShort bits hi hl hs, (Host.Outcome.next.inj h).symm⟩
  · exact ⟨_, _, .invalidTotalLen bits hi hl hs ht, (Host.Outcome.next.inj h).symm⟩
  · exact ⟨_, _, .unknownType bits hi hl h13 ht hk, (Host.Outcome.next.inj h).symm⟩
  · exact ⟨_, _, .decoded bits kind hi hl h13 ht hk, (Host.Outcome.next.inj h).symm⟩

/-- An engine-execute step that answers a next state answers the request of the engine whose turn it is. -/
theorem executeStep_answer {s s' : State} (h : executeStep s = .next s') :
    ∃ e g req rest out r, s.AtTurn e g req rest ∧ Answer s.cfg g req out r ∧ s' = s.answered e g rest out r := by
  unfold executeStep at h
  split at h
  · rename_i t ht
    have hat := atTurn_of_turn ht
    suffices ∃ out r, Answer s.cfg t.eng t.req out r ∧ s' = s.answered t.engine t.eng t.rest out r by
      obtain ⟨out, r, ha, hs⟩ := this
      exact ⟨_, _, _, _, out, r, hat, ha, hs⟩
    rcases t.req.instr_cases with ⟨kind, hi⟩ | ⟨bits, hi⟩ | hi
    · rw [hi, exec_encodeOf, atTurn_eq hat] at h
      exact runEncode_answer hi h
    · rw [hi, exec, execDecode, atTurn_eq hat] at h
      exact runDecode_answer hi h
    · rw [hi] at h
      cases h
  · cases h

/-- An issue that answers a next state made an IDLE engine BUSY with an admitted request (R21, R117). -/
theorem hostIssue_next {s s' : State} {e : Nat} {req : Request} (h : hostIssue s e req = .next s') :
    ∃ g, s.engines[e]? = some g ∧ g.phase = .idle ∧ req.refusal? s.cfg = none ∧
      s' = s.setEngine e { g with phase := .busy req } := by
  unfold hostIssue at h
  split at h
  · cases h
  · split at h
    · split at h
      · cases h
      · exact ⟨_, by assumption, by assumption, by assumption, (Host.Outcome.next.inj h).symm⟩
    · cases h
    · cases h

/-- A take that answers a next state made a DONE engine IDLE and delivered its response (R21, R107). -/
theorem hostTake_next {s s' : State} {e : Nat} (h : hostTake s e = .next s') :
    ∃ g r, s.engines[e]? = some g ∧ g.phase = .done r ∧
      s' = (s.setEngine e { g with phase := .idle }).deliver ⟨e, r, g.outMem.readN 0 r.covered⟩ := by
  unfold hostTake at h
  split at h
  · cases h
  · split at h
    · exact ⟨_, _, by assumption, by assumption, (Host.Outcome.next.inj h).symm⟩
    · cases h
    · cases h

/-- A write that answers a next state put bytes inside IN of an engine that is not BUSY (R29, R130). -/
theorem hostWrite_next {s s' : State} {e off : Nat} {bytes : List Byte} (h : hostWrite s e off bytes = .next s') :
    ∃ g, s.engines[e]? = some g ∧ (∀ req, g.phase ≠ .busy req) ∧ off + bytes.length ≤ s.cfg.maxInLen ∧
      s' = s.setEngine e { g with inMem := g.inMem.writeN off bytes } := by
  unfold hostWrite at h
  split at h
  · cases h
  · split at h
    · cases h
    · rename_i hp
      split at h
      · exact ⟨_, by assumption, by simp [hp], by assumption, (Host.Outcome.next.inj h).symm⟩
      · cases h
    · rename_i hp
      split at h
      · exact ⟨_, by assumption, by simp [hp], by assumption, (Host.Outcome.next.inj h).symm⟩
      · cases h

/-- Program lines that answer a next state changed the agenda only (R66). -/
theorem hostLines_next {s s' : State} {ls : List HostLine} {order : List Nat} {rest : List Move}
    (h : hostLines s ls order rest = .next s') :
    ∃ ms, issueMoves s ls = some ms ∧
      s' = s.setAgenda (ms ++ order.map Move.execute ++ ls.map (fun l => Move.take l.engine) ++ rest) := by
  unfold hostLines at h
  split at h
  · cases h
  · exact ⟨_, by assumption, (Host.Outcome.next.inj h).symm⟩

/-- The effects a step can have, one per kind of move. In `answer`, the engine executes because its move is next, or
because nothing is to come and it is the lowest-numbered BUSY engine (log 4). -/
inductive StepEffect (s : State) : State → Prop
  | stutter (ha : s.agenda = []) (hf : firstBusy 0 s.engines = none) : StepEffect s s
  | answer {e : Nat} {g : Engine} {req : Request} {rest : List Move} {out : Memory} {r : Response}
      (ha : s.agenda = .execute e :: rest ∨ s.agenda = [] ∧ firstBusy 0 s.engines = some e ∧ rest = [])
      (he : s.engines[e]? = some g) (hp : g.phase = .busy req) (hans : Answer s.cfg g req out r) :
      StepEffect s (s.answered e g rest out r)
  | issue {e : Nat} {g : Engine} {req : Request} {rest : List Move} (ha : s.agenda = .issue e req :: rest)
      (he : s.engines[e]? = some g) (hp : g.phase = .idle) (hr : req.refusal? s.cfg = none) :
      StepEffect s ((s.setAgenda rest).setEngine e { g with phase := .busy req })
  | take {e : Nat} {g : Engine} {r : Response} {rest : List Move} (ha : s.agenda = .take e :: rest)
      (he : s.engines[e]? = some g) (hp : g.phase = .done r) :
      StepEffect s
        (((s.setAgenda rest).setEngine e { g with phase := .idle }).deliver ⟨e, r, g.outMem.readN 0 r.covered⟩)
  | write {e off : Nat} {bytes : List Byte} {g : Engine} {rest : List Move} (ha : s.agenda = .write e off bytes :: rest)
      (he : s.engines[e]? = some g) (hp : ∀ req, g.phase ≠ .busy req) (hl : off + bytes.length ≤ s.cfg.maxInLen) :
      StepEffect s ((s.setAgenda rest).setEngine e { g with inMem := g.inMem.writeN off bytes })
  | lines {ls : List HostLine} {order : List Nat} {rest ms : List Move} (ha : s.agenda = .lines ls order :: rest)
      (hm : issueMoves s ls = some ms) :
      StepEffect s (s.setAgenda (ms ++ order.map Move.execute ++ ls.map (fun l => Move.take l.engine) ++ rest))
  | reset {contents : List Contents} {rest : List Move} (ha : s.agenda = .reset contents :: rest) :
      StepEffect s { s.setAgenda rest with engines := resetEngines s.cfg s.engines contents }

/-- Everything a step that answers a next state can do. -/
theorem step_effect {s s' : State} (h : step s = .next s') : StepEffect s s' := by
  unfold step at h
  split at h
  · rename_i ha
    split at h
    · rename_i e hf
      obtain ⟨_, g, req, _, out, r, ⟨hx, he, hp⟩, hans, rfl⟩ := executeStep_answer h
      cases hx
      exact .answer (.inr ⟨ha, hf, rfl⟩) he hp hans
    · rename_i hf
      cases h
      exact .stutter ha hf
  · obtain ⟨_, g, req, rest, out, r, ⟨ha, he, hp⟩, hans, rfl⟩ := executeStep_answer h
    exact .answer (.inl ha) he hp hans
  · rename_i ha
    obtain ⟨g, he, hp, hr, rfl⟩ := hostIssue_next h
    exact .issue ha he hp hr
  · rename_i ha
    obtain ⟨g, r, he, hp, rfl⟩ := hostTake_next h
    exact .take ha he hp
  · rename_i ha
    obtain ⟨g, he, hp, hl, rfl⟩ := hostWrite_next h
    exact .write ha he hp hl
  · rename_i ha
    obtain ⟨ms, hm, rfl⟩ := hostLines_next h
    exact .lines ha hm
  · rename_i ha
    cases h
    exact .reset ha

end Sys2Proof.Machine
end

section
/-! ## 00_scope: every step keeps the invariant (R2, R18, R29, R117, R118) -/

namespace Sys2Proof.Machine

/-! ### One rule per update of the state -/

theorem State.Inv.cfg_wf {s : State} (h : s.Inv) : s.cfg.wf := h.1

theorem State.Inv.engine_wf {s : State} (h : s.Inv) {e : Nat} {g : Engine} (he : s.engines[e]? = some g) :
    g.wf s.cfg := by
  obtain ⟨-, -, hw, -⟩ := h
  exact hw g (List.mem_of_getElem? he)

theorem State.Inv.engine_lt {s : State} (h : s.Inv) {e : Nat} {g : Engine} (he : s.engines[e]? = some g) :
    e < s.cfg.numEngines := by
  obtain ⟨-, hn, -, -⟩ := h
  obtain ⟨hlt, -⟩ := List.getElem?_eq_some_iff.mp he
  exact hn ▸ hlt

theorem State.Inv.setAgenda {s : State} (h : s.Inv) (ms : List Move) : (s.setAgenda ms).Inv := h

theorem State.Inv.setEngine {s : State} (h : s.Inv) (e : Nat) {g : Engine} (hg : g.wf s.cfg) :
    (s.setEngine e g).Inv := by
  obtain ⟨hc, hn, hw, hd⟩ := h
  refine ⟨hc, by simpa using hn, fun g' hg' => ?_, hd⟩
  rcases List.mem_or_eq_of_mem_set hg' with hm | rfl
  · exact hw g' hm
  · exact hg

theorem State.Inv.deliver {s : State} (h : s.Inv) {d : Delivery} (hd : d.wf s.cfg) : (s.deliver d).Inv := by
  obtain ⟨hc, hn, hw, hds⟩ := h
  refine ⟨hc, hn, hw, fun d' hd' => ?_⟩
  rcases List.mem_append.mp hd' with hm | hm
  · exact hds d' hm
  · exact List.mem_singleton.mp hm ▸ hd

/-! ### What is well formed after each effect -/

/-- Another phase that is well formed. -/
theorem Engine.wf.withPhase {c : Config} {g : Engine} (h : g.wf c) {p : Phase} (hp : p.wf c) :
    Engine.wf c { g with phase := p } := by
  obtain ⟨hi, hic, ho, hoc, -⟩ := h
  exact ⟨hi, hic, ho, hoc, hp⟩

/-- Bytes written inside IN. -/
theorem Engine.wf.writeIn {c : Config} {g : Engine} (h : g.wf c) {off : Nat} {bytes : List Byte}
    (hl : off + bytes.length ≤ c.maxInLen) : Engine.wf c { g with inMem := g.inMem.writeN off bytes } := by
  obtain ⟨hi, hic, ho, hoc, hp⟩ := h
  exact ⟨Memory.wf_writeN hi off bytes, Memory.within_writeN hic bytes hl, ho, hoc, hp⟩

/-- An engine is well formed after a reset, with the contents the reset carries or with those it had. -/
theorem resetEngines_wf {c : Config} {es : List Engine} (h : ∀ g ∈ es, g.wf c) (ks : List Contents) :
    ∀ g ∈ resetEngines c es ks, g.wf c := by
  intro g hg
  obtain ⟨e, he⟩ := List.mem_iff_getElem?.mp hg
  rw [resetEngines_getElem?] at he
  obtain ⟨g₀, he₀, rfl⟩ := Option.map_eq_some_iff.mp he
  split
  · exact ⟨Memory.wf_ofCells _ _, Memory.within_ofCells _ _, Memory.wf_ofCells _ _, Memory.within_ofCells _ _, trivial⟩
  · exact (h g₀ (List.mem_of_getElem? he₀)).withPhase trivial

/-- OUT is as long as any frame (R2). -/
theorem Memory.within_writeN_out {c : Config} (hc : c.wf) {out : Memory} (h : out.within c.maxOutLen) {bytes : List Byte}
    (hl : bytes.length ≤ maxTotalLen) : (out.writeN 0 bytes).within c.maxOutLen := by
  obtain ⟨-, hmax, -, -⟩ := hc
  exact Memory.within_writeN h bytes ((Nat.zero_add _).le.trans (hl.trans hmax))

/-- A total_len is at most MAX_TOTAL_LEN (R59). -/
theorem totalLenAt_le (m : Memory) : (totalLenAt m).toNat ≤ maxTotalLen := Nat.le_of_lt_succ (totalLenAt m).isLt

/-- Every answer is within the bounds of its response form. -/
theorem Answer.rsp_wf {c : Config} {g : Engine} {req : Request} {out : Memory} {r : Response}
    (h : Answer c g req out r) : r.wf c := by
  cases h with
  | totalLenOverflow _ _ hl ht => exact ⟨ht, by omega⟩
  | encoded _ _ hl ht => exact ⟨Nat.le_add_right 13 _, ht, by omega⟩
  | tooShort => trivial
  | invalidTotalLen _ _ hl hs ht => exact ⟨hs, hl, ht⟩
  | unknownType _ _ _ _ _ hk => exact kindOfTag_eq_none.mp hk
  | decoded _ _ _ hl h13 ht _ =>
    have hmax := totalLenAt_le g.inMem
    exact ⟨Nat.sub_le_sub_right hmax 13, by omega⟩

/-- Every answer leaves an OUT in canonical form and inside its capacity. -/
theorem Answer.out_wf {c : Config} (hc : c.wf) {g : Engine} {req : Request} {out : Memory} {r : Response}
    (h : Answer c g req out r) (hw : g.outMem.wf) (hi : g.outMem.within c.maxOutLen) :
    out.wf ∧ out.within c.maxOutLen := by
  cases h with
  | totalLenOverflow | tooShort | invalidTotalLen | unknownType => exact ⟨hw, hi⟩
  | encoded _ _ _ ht =>
    rw [writeFrame_eq]
    exact ⟨Memory.wf_writeN hw _ _, Memory.within_writeN_out hc hi (by simpa using ht)⟩
  | decoded =>
    refine ⟨Memory.wf_writeN hw _ _, Memory.within_writeN_out hc hi ?_⟩
    rw [Memory.length_readN]
    exact (Nat.sub_le _ _).trans (totalLenAt_le g.inMem)

theorem State.Inv.answered {s : State} (h : s.Inv) {e : Nat} {g : Engine} {req : Request} {out : Memory} {r : Response}
    (he : s.engines[e]? = some g) (hans : Answer s.cfg g req out r) (rest : List Move) :
    (s.answered e g rest out r).Inv := by
  obtain ⟨hi, hic, ho, hoc, -⟩ := h.engine_wf he
  obtain ⟨ho', hoc'⟩ := hans.out_wf h.cfg_wf ho hoc
  exact (h.setEngine e (g := { g with phase := .done r, outMem := out }) ⟨hi, hic, ho', hoc', hans.rsp_wf⟩).setAgenda rest

/-- Every effect a step can have keeps the invariant. -/
theorem StepEffect.inv {s s' : State} (hx : StepEffect s s') (h : s.Inv) : s'.Inv := by
  cases hx with
  | stutter => exact h
  | answer _ he _ hans => exact h.answered he hans _
  | issue _ he _ hr => exact (h.setAgenda _).setEngine _ ((h.engine_wf he).withPhase hr)
  | @take e g r rest _ he hp =>
    have hg := h.engine_wf he
    have hr : r.wf s.cfg := by
      obtain ⟨-, -, -, -, hph⟩ := hg
      rwa [hp] at hph
    exact ((h.setAgenda rest).setEngine e (hg.withPhase trivial)).deliver
      ⟨h.engine_lt he, hr, Memory.length_readN _ _ _⟩
  | write _ he _ hl => exact (h.setAgenda _).setEngine _ ((h.engine_wf he).writeIn hl)
  | lines => exact h.setAgenda _
  | reset =>
    obtain ⟨hc, hn, hw, hd⟩ := h
    exact ⟨hc, (resetEngines_length _ _ _).trans hn, resetEngines_wf hw _, hd⟩

/-- Settles O57, by the cases of what a step can do: each updates the state by rules that keep the invariant. -/
theorem stepKeepsTheInvariant : Obligations.StepKeepsTheInvariant :=
  fun _ _ hinv h => (step_effect h).inv hinv

end Sys2Proof.Machine
end

section
/-! ## 10_state: what each move of the front of the agenda does -/

namespace Sys2Proof.Machine

theorem step_execute {s : State} {e : Nat} {rest : List Move} (h : s.agenda = .execute e :: rest) :
    step s = executeStep s := by
  simp only [step, h]

theorem step_issue {s : State} {e : Nat} {req : Request} {rest : List Move} (h : s.agenda = .issue e req :: rest) :
    step s = hostIssue (s.setAgenda rest) e req := by
  simp only [step, h]

theorem step_take {s : State} {e : Nat} {rest : List Move} (h : s.agenda = .take e :: rest) :
    step s = hostTake (s.setAgenda rest) e := by
  simp only [step, h]

/-- The step at an engine's turn runs the instruction its request selects (R20, R63). -/
theorem step_eq_exec {s : State} {e : Nat} {g : Engine} {req : Request} {rest : List Move}
    (h : s.AtTurn e g req rest) : step s = exec req.instr s := by
  obtain ⟨ha, -, -⟩ := id h
  simp only [step_execute ha, executeStep, turn_of_atTurn h]

/-- Settles O8: a command word always decodes, and the step at a turn is `exec` of what it decodes to. -/
theorem stepRunsTheRequestedCommand : Obligations.StepRunsTheRequestedCommand :=
  fun _ _ _ _ _ h => ⟨rfl, step_eq_exec h⟩

/-! ### Issue -/

theorem hostIssue_idle {s : State} {e : Nat} {g : Engine} {req : Request} (he : s.engines[e]? = some g)
    (hp : g.phase = .idle) (hr : req.refusal? s.cfg = none) :
    hostIssue s e req = .next (s.setEngine e { g with phase := .busy req }) := by
  simp only [hostIssue, he, hp, hr]

theorem hostIssue_not_idle {s : State} {e : Nat} {g : Engine} {req : Request} (he : s.engines[e]? = some g)
    (hp : g.phase ≠ .idle) : hostIssue s e req = .fault .issueNotIdle := by
  simp only [hostIssue, he]
  cases hg : g.phase with
  | idle => exact absurd hg hp
  | busy | done => rfl

/-- Settles O45: the front move is the issue, on an IDLE engine or on another one. -/
theorem issueMakesAnIdleEngineBusy : Obligations.IssueMakesAnIdleEngineBusy := by
  intro s e g req rest ha he
  rw [step_issue ha]
  exact ⟨fun hp hr => hostIssue_idle he hp hr, fun hp => hostIssue_not_idle he hp⟩

/-! ### Take -/

theorem hostTake_done {s : State} {e : Nat} {g : Engine} {r : Response} (he : s.engines[e]? = some g)
    (hp : g.phase = .done r) : hostTake s e
      = .next ((s.setEngine e { g with phase := .idle }).deliver ⟨e, r, g.outMem.readN 0 r.covered⟩) := by
  simp only [hostTake, he, hp]

theorem hostTake_not_done {s : State} {e : Nat} {g : Engine} (he : s.engines[e]? = some g)
    (hp : ∀ r, g.phase ≠ .done r) : hostTake s e = .fault .takeNotDone := by
  simp only [hostTake, he]
  cases hg : g.phase with
  | done r => exact absurd hg (hp r)
  | idle | busy => rfl

/-- A delivery is the last element of its own engine's observation (R135). -/
theorem State.observation_deliver_self (s : State) (d : Delivery) :
    (s.deliver d).observation d.engine = s.observation d.engine ++ [(d.rsp, d.bytes)] := by
  simp [State.observation]

/-- A delivery leaves the observation of every other engine as it was (R135). -/
theorem State.observation_deliver_other (s : State) {d : Delivery} {e : Nat} (h : e ≠ d.engine) :
    (s.deliver d).observation e = s.observation e := by
  simp [State.observation, h.symm]

/-- Settles O46: the front move is the take, on a DONE engine or on another one. -/
theorem takeDeliversTheResponse : Obligations.TakeDeliversTheResponse := by
  intro s e g rest ha he
  rw [step_take ha]
  refine ⟨fun r hp => ⟨_, hostTake_done he hp, rfl, rfl, rfl, ?_, fun e' h => ?_⟩, fun hp => hostTake_not_done he hp⟩
  · exact State.observation_deliver_self _ ⟨e, r, g.outMem.readN 0 r.covered⟩
  · exact State.observation_deliver_other _ h

end Sys2Proof.Machine
end

section
/-! ## 10_state: what one step does to one engine (R12, R21, R29, R44, R122, R130) -/

namespace Sys2Proof.Machine

/-- What a step that answers a next state can make of engine `e`. -/
inductive EngineEffect (s : State) (e : Nat) (g : Engine) : Engine → Prop
  | unchanged : EngineEffect s e g g
  | issued (req : Request) (hp : g.phase = .idle) : EngineEffect s e g { g with phase := .busy req }
  | answered {req : Request} {out : Memory} {r : Response} (hp : g.phase = .busy req) (hans : Answer s.cfg g req out r) :
      EngineEffect s e g { g with phase := .done r, outMem := out }
  | taken {r : Response} (hp : g.phase = .done r) : EngineEffect s e g { g with phase := .idle }
  | written {off : Nat} {bytes : List Byte} {rest : List Move} (ha : s.agenda = .write e off bytes :: rest)
      (hp : ∀ req, g.phase ≠ .busy req) : EngineEffect s e g { g with inMem := g.inMem.writeN off bytes }
  | reset {contents : List Contents} {rest : List Move} {g' : Engine} (ha : s.agenda = .reset contents :: rest)
      (hp : g'.phase = .idle) : EngineEffect s e g g'

/-- Where one engine of a list is replaced, any engine is the new one in its place or the one it was. -/
theorem getElem?_set_cases {es : List Engine} {e₀ e : Nat} {g₀ h g g' : Engine} (he₀ : es[e₀]? = some g₀)
    (he : es[e]? = some g) (he' : (es.set e₀ h)[e]? = some g') : e₀ = e ∧ g₀ = g ∧ g' = h ∨ g' = g := by
  rcases eq_or_ne e₀ e with rfl | hne
  · obtain ⟨hlt, -⟩ := List.getElem?_eq_some_iff.mp he
    rw [List.getElem?_set_self hlt] at he'
    exact .inl ⟨rfl, Option.some.inj (he₀.symm.trans he), (Option.some.inj he').symm⟩
  · rw [List.getElem?_set_ne hne, he] at he'
    exact .inr (Option.some.inj he').symm

/-- Every engine after a reset is IDLE (R122). -/
theorem phase_of_resetEngines {c : Config} {es : List Engine} {ks : List Contents} {e : Nat} {g : Engine}
    (h : (resetEngines c es ks)[e]? = some g) : g.phase = .idle := by
  rw [resetEngines_getElem?] at h
  obtain ⟨g₀, -, rfl⟩ := Option.map_eq_some_iff.mp h
  split <;> rfl

/-- A step's effect, as one engine sees it: the move names that engine, or the engine stays as it is. -/
theorem StepEffect.engine {s s' : State} (h : StepEffect s s') {e : Nat} {g g' : Engine}
    (he : s.engines[e]? = some g) (he' : s'.engines[e]? = some g') : EngineEffect s e g g' := by
  cases h with
  | stutter | lines => exact Option.some.inj (he.symm.trans he') ▸ .unchanged
  | answer _ he₀ hp hans =>
    obtain ⟨rfl, rfl, rfl⟩ | rfl := getElem?_set_cases he₀ he he'
    · exact .answered hp hans
    · exact .unchanged
  | issue _ he₀ hp =>
    obtain ⟨rfl, rfl, rfl⟩ | rfl := getElem?_set_cases he₀ he he'
    · exact .issued _ hp
    · exact .unchanged
  | take _ he₀ hp =>
    obtain ⟨rfl, rfl, rfl⟩ | rfl := getElem?_set_cases he₀ he he'
    · exact .taken hp
    · exact .unchanged
  | write ha he₀ hp =>
    obtain ⟨rfl, rfl, rfl⟩ | rfl := getElem?_set_cases he₀ he he'
    · exact .written ha hp
    · exact .unchanged
  | reset ha => exact .reset ha (phase_of_resetEngines he')

/-- A command that raises an error writes no byte of OUT (R44, R106). -/
theorem Answer.out_of_error {c : Config} {g : Engine} {req : Request} {out : Memory} {r : Response}
    (h : Answer c g req out r) (hr : r.ok = false) : out = g.outMem := by
  cases h with
  | totalLenOverflow | tooShort | invalidTotalLen | unknownType => rfl
  | encoded | decoded => cases hr

/-- Settles O49: each effect on an engine is one of R21's transitions, a reset, or leaves the phase alone. -/
theorem phasesChangeOnlyAlongTheThreeTransitions : Obligations.PhasesChangeOnlyAlongTheThreeTransitions := by
  intro s s' e g g' h he he'
  cases (step_effect h).engine he he' with
  | unchanged | written => exact .inl rfl
  | issued req hp => exact .inr (.inl ⟨hp, req, rfl⟩)
  | answered hp => exact .inr (.inr (.inl ⟨⟨_, hp⟩, _, rfl⟩))
  | taken hp => exact .inr (.inr (.inr (.inl ⟨⟨_, hp⟩, rfl⟩)))
  | reset ha hp => exact .inr (.inr (.inr (.inr ⟨⟨_, _, ha⟩, hp⟩)))

/-- Settles O50: of the effects on an engine only a host write touches IN and only an answer touches OUT, an error's not. -/
theorem bytesChangeOnlyByTheirOwner : Obligations.BytesChangeOnlyByTheirOwner := by
  intro s s' e g g' h he he'
  cases (step_effect h).engine he he' with
  | unchanged | issued | taken => exact .inr ⟨.inl rfl, .inl rfl⟩
  | @answered req out r hp hans =>
    refine .inr ⟨.inl rfl, ?_⟩
    cases hr : r.ok with
    | false => exact .inl (hans.out_of_error hr)
    | true => exact .inr ⟨⟨req, hp⟩, r, rfl, hr⟩
  | written ha hp => exact .inr ⟨.inr ⟨⟨_, _, _, ha⟩, hp⟩, .inl rfl⟩
  | reset ha => exact .inl ⟨_, _, ha⟩

end Sys2Proof.Machine
end

section
/-! ## 10_state: the response forms, their fields and their widths (R17, R18, R64) -/

namespace Sys2Proof.Machine

/-- STATUS is one of the five codes of R64. -/
theorem Response.status_le_four (r : Response) : r.status.toNat ≤ 4 := by
  cases r <;> exact Nat.le_of_ble_eq_true rfl

/-- Settles O42: STATUS and the fields of each form, by its equations. -/
theorem responsesHaveTheirStatusAndFieldsOnly : Obligations.ResponsesHaveTheirStatusAndFieldsOnly := by
  refine ⟨fun _ => rfl, fun _ _ _ => rfl, rfl, fun _ _ => rfl, fun _ => rfl, fun _ => rfl, fun r => ?_,
    fun n f => ?_, fun k q n f => ?_, fun f => ?_, fun d a f => ?_, fun t f => ?_, fun n f => ?_⟩
  · have h := r.status_le_four
    refine ⟨?_, ?_, ?_⟩ <;> intro hs <;> rw [hs] at h <;> exact absurd h (by decide)
  all_goals cases f <;> simp [Response.field?]

/-- A response within its bounds covers no byte past MAX_OUT_LEN, which is at least MAX_TOTAL_LEN (R2). -/
theorem Response.wf.covered_le {c : Config} (hc : c.wf) {r : Response} (h : r.wf c) : r.covered ≤ c.maxOutLen := by
  obtain ⟨-, hmax, -, -⟩ := hc
  cases r with
  | okEncode olen =>
    obtain ⟨-, hle, -⟩ := h
    exact hle.trans hmax
  | okDecode k q plen =>
    obtain ⟨hle, -⟩ := h
    exact hle.trans ((by decide : maxPayloadLen ≤ maxTotalLen).trans hmax)
  | errTooShort | errInvalidTotalLen | errUnknownType | errTotalLenOverflow => exact Nat.zero_le _

/-- The fields of a response within its bounds fit their widths: ACTUAL and COMPUTED because MAX_IN_LEN fits LEN_W (log 1). -/
theorem Response.wf.field_lt {c : Config} (hc : c.wf) {r : Response} (h : r.wf c) {f : FieldName} {v : Nat}
    (hf : r.field? f = some v) : v < 2 ^ f.width c.lenW := by
  obtain ⟨-, -, hw, hin⟩ := hc
  cases f with
  | status | kind | seq | declared | tag => cases r <;> cases hf <;> exact BitVec.isLt _
  | olen =>
    cases r <;> cases hf
    obtain ⟨-, hle, -⟩ := h
    exact Nat.lt_succ_of_le hle
  | plen =>
    cases r <;> cases hf
    obtain ⟨hle, -⟩ := h
    exact hle.trans_lt (show maxPayloadLen < 2 ^ 32 by decide)
  | actual =>
    cases r <;> cases hf
    obtain ⟨-, hle, -⟩ := h
    exact hle.trans_lt hin
  | computed =>
    cases r <;> cases hf
    obtain ⟨-, hle⟩ := h
    have hpow : 2 ^ 33 ≤ 2 ^ c.lenW := Nat.pow_le_pow_right (by decide) hw
    rw [FieldName.width, Nat.pow_succ]
    omega

end Sys2Proof.Machine
end

section
/-! ## 10_state: what a command answers, as a function of the input bytes it names (R15, R68, R80, R93) -/

namespace Sys2Proof.Machine

/-! ### Parts of a block read -/

/-- A part of a block read is the block read of that part. -/
theorem Memory.take_drop_readN (m : Memory) {a k n len : Nat} (h : k + n ≤ len) :
    ((m.readN a len).drop k).take n = m.readN (a + k) n := by
  obtain ⟨j, rfl⟩ := Nat.exists_eq_add_of_le h
  rw [Nat.add_assoc, Memory.readN_add, List.drop_left' (Memory.length_readN ..), Memory.readN_add,
    List.take_left' (Memory.length_readN ..)]

/-- One byte of a block read. -/
theorem Memory.getD_readN (m : Memory) {a k len : Nat} (h : k < len) (d : Byte) :
    (m.readN a len).getD k d = m.read (a + k) := by
  obtain ⟨j, rfl⟩ := Nat.exists_eq_add_of_lt h
  rw [Nat.add_assoc, Memory.readN_add, List.getD_append_right _ _ _ _ (Memory.length_readN ..).le]
  simp [Memory.readN]

/-- The total_len a buffer declares, read from a space or from the buffer's bytes (R82). -/
theorem declaredLen_readN (m : Memory) {len : Nat} (h : 4 ≤ len) :
    declaredLen (m.readN 0 len) = (totalLenAt m).toNat := by
  have ht : (m.readN 0 len).take 4 = m.readN 0 4 := m.take_drop_readN (k := 0) (by omega)
  have hlt := beNat_lt (m.readN 0 4)
  rw [Memory.length_readN] at hlt
  rw [declaredLen, ht, totalLenAt, BitVec.toNat_ofNat, Nat.mod_eq_of_lt (show _ < 2 ^ 32 from hlt)]

/-! ### Replies -/

/-- What a command leaves behind: the bytes it writes to OUT from offset 0, and its response. -/
structure Reply where
  bytes : List Byte
  rsp : Response

/-- The reply to an ENCODE whose pure function gives this (R69, R70). -/
def encodeReply : Except CodecError (List Byte) → Reply
  | .ok frame => ⟨frame, .okEncode frame.length⟩
  | .error err => ⟨[], err.response⟩

/-- The reply to a DECODE whose pure function gives this (R89, R91). -/
def decodeReply : Except CodecError Segment → Reply
  | .ok seg => ⟨seg.payload, .okDecode seg.kind seg.sequence seg.payload.length⟩
  | .error err => ⟨[], err.response⟩

/-- The state after a command gave a reply at a turn. -/
def State.replied (s : State) (t : Turn) (a : Reply) : State :=
  s.answered t.engine t.eng t.rest (t.eng.outMem.writeN 0 a.bytes) a.rsp

/-- ENCODE's reply covers exactly the bytes it writes. -/
theorem covered_encodeReply (x : Except CodecError (List Byte)) :
    (encodeReply x).rsp.covered = (encodeReply x).bytes.length := by
  cases x with
  | ok frame => rw [encodeReply, Response.covered_okEncode]
  | error err => rw [encodeReply, CodecError.covered_response, List.length_nil]

/-- DECODE's reply covers exactly the bytes it writes. -/
theorem covered_decodeReply (x : Except CodecError Segment) :
    (decodeReply x).rsp.covered = (decodeReply x).bytes.length := by
  cases x with
  | ok seg => rw [decodeReply, Response.covered_okDecode]
  | error err => rw [decodeReply, CodecError.covered_response, List.length_nil]

/-- ENCODE gives the reply of its pure function on the payload in IN (R68). -/
theorem runEncode_eq {kind : Kind} {seq : Seq} {plen : Nat} {s : State} {t : Turn} :
    runEncode kind seq plen s t = if s.cfg.maxInLen < plen then .refused .requestTooLong
      else .next (s.replied t (encodeReply (encodeSegment ⟨kind, seq, t.eng.inMem.readN 0 plen⟩))) := by
  have hlen : (t.eng.inMem.readN 0 plen).length = plen := Memory.length_readN ..
  rcases runEncode_cases kind seq plen s t with ⟨hl, hx⟩ | ⟨hl, ht, hx⟩ | ⟨hl, ht, hx⟩
  · rw [hx, if_pos hl]
  · rw [hx, if_neg hl.not_gt, encodeSegment, if_pos (by rwa [hlen]), hlen]
    rfl
  · rw [hx, if_neg hl.not_gt, encodeSegment, if_neg (by rw [hlen]; omega), writeFrame_eq, hlen]
    simp only [State.replied, encodeReply, headerBytes, List.length_append, length_bytesBE, hlen]
    rfl

/-- DECODE gives the reply of its pure function on the buffer it received (R80). -/
theorem runDecode_eq {inp : Memory} {blen : Nat} {s : State} {t : Turn} :
    runDecode inp blen s t = if s.cfg.maxInLen < blen then .refused .requestTooLong
      else .next (s.replied t (decodeReply (decodeBuffer (inp.readN 0 blen)))) := by
  have hlen : (inp.readN 0 blen).length = blen := Memory.length_readN ..
  rcases runDecode_cases inp blen s t with
    ⟨hl, hx⟩ | ⟨hl, hs, hx⟩ | ⟨hl, hs, ht, hx⟩ | ⟨hl, h13, ht, hk, hx⟩ | ⟨kind, hl, h13, ht, hk, hx⟩
  · rw [hx, if_pos hl]
  · rw [hx, if_neg hl.not_gt, decodeBuffer, if_pos (by omega)]
    rfl
  · rw [hx, if_neg hl.not_gt, decodeBuffer, if_neg (by omega), declaredLen_readN _ hs, hlen, if_pos ht, BitVec.ofNat_toNat,
      BitVec.setWidth_eq]
    rfl
  · rw [hx, if_neg hl.not_gt, decodeBuffer, if_neg (by omega), declaredLen_readN _ (by omega), hlen, if_neg (by omega),
      Memory.getD_readN _ (by omega), Nat.zero_add, hk]
    rfl
  · have hseq : ((inp.readN 0 blen).drop 5).take 8 = inp.readN 5 8 := by
      simpa using inp.take_drop_readN (a := 0) (k := 5) (n := 8) (len := blen) (by omega)
    have hpay : ((inp.readN 0 blen).drop 13).take ((totalLenAt inp).toNat - 13)
        = inp.readN 13 ((totalLenAt inp).toNat - 13) := by
      simpa using inp.take_drop_readN (a := 0) (k := 13) (n := (totalLenAt inp).toNat - 13) (len := blen) (by omega)
    rw [hx, if_neg hl.not_gt, decodeBuffer, if_neg (by omega), declaredLen_readN _ (by omega), hlen, if_neg (by omega),
      Memory.getD_readN _ (by omega), Nat.zero_add, hk, hseq, hpay]
    simp only [State.replied, decodeReply, Memory.length_readN]
    rfl

/-! ### Independence -/

/-- A command is refused for its length, or gives a reply that is a function of the bytes it names. -/
theorem exec_command {i : Instr} {n : Nat} {seq : Seq} {k : BitVec 2}
    (hi : i ∈ [Instr.encodeData seq n, Instr.encodeAck seq n, Instr.encodeSyn seq n, Instr.decode k n]) :
    ∃ f : List Byte → Reply, (∀ b, (f b).rsp.covered = (f b).bytes.length) ∧
      ∀ (s : State) (e : Nat) (g : Engine) (req : Request) (rest : List Move), s.AtTurn e g req rest →
        exec i s = if s.cfg.maxInLen < n then .refused .requestTooLong
          else .next (s.replied ⟨e, g, req, rest⟩ (f (g.inMem.readN 0 n))) := by
  have hcmd : (∃ kind, i = encodeOf kind seq n) ∨ i = .decode k n := by
    simp only [List.mem_cons, List.not_mem_nil, or_false] at hi
    rcases hi with h | h | h | h
    · exact .inl ⟨.data, h⟩
    · exact .inl ⟨.ack, h⟩
    · exact .inl ⟨.syn, h⟩
    · exact .inr h
  rcases hcmd with ⟨kind, rfl⟩ | rfl
  · exact ⟨fun b => encodeReply (encodeSegment ⟨kind, seq, b⟩), fun _ => covered_encodeReply _,
      fun s e g req rest hat => by rw [exec_encodeOf, atTurn_eq hat, runEncode_eq]⟩
  · exact ⟨fun b => decodeReply (decodeBuffer b), fun _ => covered_decodeReply _, fun s e g req rest hat => by
      rw [exec, execDecode, atTurn_eq hat, runDecode_eq]⟩

/-- The engine that answered, after its answer. -/
theorem State.answered_engine {s : State} {e : Nat} {g : Engine} {req : Request} {rest : List Move}
    (h : s.AtTurn e g req rest) (rest' : List Move) (out : Memory) (r : Response) :
    (s.answered e g rest' out r).engines[e]? = some ⟨.done r, g.inMem, out⟩ := by
  obtain ⟨-, he, -⟩ := h
  obtain ⟨hlt, -⟩ := List.getElem?_eq_some_iff.mp he
  exact List.getElem?_set_self hlt

/-- An answered state determines the OUT and the response of its answer. -/
theorem State.answered_inj {s : State} {e : Nat} {g : Engine} {req : Request} {rest : List Move}
    (h : s.AtTurn e g req rest) {out out' : Memory} {r r' : Response}
    (heq : s.answered e g rest out r = s.answered e g rest out' r') : out = out' ∧ r = r' := by
  have hg := State.answered_engine h rest out r
  rw [heq, State.answered_engine h] at hg
  cases hg
  exact ⟨rfl, rfl⟩

/-- Settles O36: both runs give the reply that the one function of the command makes of the same bytes, and the bytes the
response covers are those the reply wrote. -/
theorem answersDependOnTheRequestAndItsBytesOnly : Obligations.AnswersDependOnTheRequestAndItsBytesOnly := by
  intro s₁ s₂ e₁ e₂ g₁ g₂ q₁ q₂ rest₁ rest₂ i n seq k out₁ r hat₁ hat₂ hw₁ hw₂ hn hIn hi hx
  obtain ⟨f, hcov, hf⟩ := exec_command hi
  rw [hf s₁ _ _ _ _ hat₁, hIn] at hx
  rw [hf s₂ _ _ _ _ hat₂, if_neg hn.not_gt]
  split at hx
  · cases hx
  · obtain ⟨rfl, rfl⟩ := State.answered_inj hat₁ (Host.Outcome.next.inj hx)
    refine ⟨_, rfl, ?_⟩
    rw [hcov, Memory.readN_writeN_same _ _ _ hw₁]
    exact Memory.readN_writeN_same _ _ _ hw₂

/-! ### Admitted requests -/

/-- An admitted request is not the reserved command word, and its length fits IN (R117). -/
theorem Request.refusal?_eq_none {c : Config} {req : Request} (h : req.refusal? c = none) :
    req.cmd ≠ 0b110#3 ∧ req.len ≤ c.maxInLen := by
  unfold Request.refusal? at h
  split at h
  · cases h
  · split at h
    · cases h
    · exact ⟨by assumption, by omega⟩

/-- Only the command word 110 is the reserved one (R63). -/
theorem Request.cmd_of_reserved {req : Request} (h : req.instr = .reservedEncodeKind3 req.seq req.len) :
    req.cmd = 0b110#3 := by
  have hlast : ∀ cmd : BitVec 3, ¬ opBit cmd → kindField cmd ≠ 0b00#2 → kindField cmd ≠ 0b01#2 →
      kindField cmd ≠ 0b10#2 → cmd = 0b110#3 := by decide
  unfold Request.instr decodeCommand at h
  split_ifs at h with hop hData hAck hSyn
  exact hlast _ hop hData hAck hSyn

/-- Settles O39: an admitted request selects ENCODE or DECODE with a length that IN holds, and both then give a reply. -/
theorem admittedRequestsEndInAResponse : Obligations.AdmittedRequestsEndInAResponse := by
  intro s e g req rest hat hr
  obtain ⟨hcmd, hl⟩ := Request.refusal?_eq_none hr
  rw [step_eq_exec hat]
  rcases req.instr_cases with ⟨kind, hi⟩ | ⟨bits, hi⟩ | hi
  · rw [hi, exec_encodeOf, atTurn_eq hat, runEncode_eq, if_neg hl.not_gt]
    exact ⟨_, _, rfl⟩
  · rw [hi, exec, execDecode, atTurn_eq hat, runDecode_eq, if_neg hl.not_gt]
    exact ⟨_, _, rfl⟩
  · exact absurd (Request.cmd_of_reserved hi) hcmd

end Sys2Proof.Machine
end

section
/-! ## 10_state: which responses each instruction can give (R14, R101 to R105) -/

namespace Sys2Proof.Machine

/-- The responses of ENCODE for a payload of `plen` bytes. -/
def EncodeAnswers (plen : Nat) (r : Response) : Prop :=
  r = .okEncode (13 + plen) ∨ r = .errTotalLenOverflow (13 + plen)

/-- The responses of DECODE for a buffer of `blen` bytes. -/
def DecodeAnswers (blen : Nat) (r : Response) : Prop :=
  (∃ k q n, r = .okDecode k q n) ∨ r = .errTooShort ∨ (∃ d, r = .errInvalidTotalLen d blen) ∨
    ∃ t, r = .errUnknownType t ∧ 3 ≤ t.toNat

/-- The responses of an instruction at the turn of a request: a wire word answers as that request's DECODE (log 7). -/
def InstrAnswers (req : Request) (r : Response) : Instr → Prop
  | .encodeData _ plen | .encodeAck _ plen | .encodeSyn _ plen => EncodeAnswers plen r
  | .decode _ blen => DecodeAnswers blen r
  | .reservedEncodeKind3 _ _ => False
  | .frameHeader _ _ _ | .tagData | .tagAck | .tagSyn | .tagReserved _ => DecodeAnswers req.len r

/-- The state is the answer of a turn with a response of a given sort, within its bounds. -/
def AnsweredBy (sort : Response → Prop) (s : State) (t : Turn) (s' : State) : Prop :=
  ∃ out r, s' = s.answered t.engine t.eng t.rest out r ∧ sort r ∧ r.wf s.cfg

theorem runEncode_answeredBy {kind : Kind} {seq : Seq} {plen : Nat} {s s' : State} {t : Turn}
    (h : runEncode kind seq plen s t = .next s') : AnsweredBy (EncodeAnswers plen) s t s' := by
  rcases runEncode_cases kind seq plen s t with ⟨-, hx⟩ | ⟨hl, ht, hx⟩ | ⟨hl, ht, hx⟩ <;> rw [hx] at h <;> cases h
  · exact ⟨_, _, rfl, .inr rfl, ht, by omega⟩
  · exact ⟨_, _, rfl, .inl rfl, Nat.le_add_right 13 _, ht, by omega⟩

theorem runDecode_answeredBy {inp : Memory} {blen : Nat} {s s' : State} {t : Turn}
    (h : runDecode inp blen s t = .next s') : AnsweredBy (DecodeAnswers blen) s t s' := by
  rcases runDecode_cases inp blen s t with
    ⟨-, hx⟩ | ⟨-, -, hx⟩ | ⟨hl, hs, ht, hx⟩ | ⟨-, -, -, hk, hx⟩ | ⟨kind, hl, h13, ht, -, hx⟩ <;> rw [hx] at h <;> cases h
  · exact ⟨_, _, rfl, .inr (.inl rfl), trivial⟩
  · exact ⟨_, _, rfl, .inr (.inr (.inl ⟨_, rfl⟩)), hs, hl, ht⟩
  · have htag := kindOfTag_eq_none.mp hk
    exact ⟨_, _, rfl, .inr (.inr (.inr ⟨_, rfl, htag⟩)), htag⟩
  · exact ⟨_, _, rfl, .inl ⟨_, _, _, rfl⟩, Nat.sub_le_sub_right (totalLenAt_le inp) 13, by omega⟩

theorem runWire_answeredBy {off : Nat} {bytes : List Byte} {s s' : State} {t : Turn}
    (h : runWire off bytes s t = .next s') : AnsweredBy (DecodeAnswers t.req.len) s t s' := by
  unfold runWire at h
  split at h
  · exact runDecode_answeredBy h
  · cases h

/-- Every instruction that answers at a turn gives one of its own responses, within its bounds. -/
theorem exec_answeredBy {i : Instr} {s s' : State} {e : Nat} {g : Engine} {req : Request} {rest : List Move}
    (hat : s.AtTurn e g req rest) (h : exec i s = .next s') :
    AnsweredBy (InstrAnswers req · i) s ⟨e, g, req, rest⟩ s' := by
  cases i with
  | encodeData | encodeAck | encodeSyn => exact runEncode_answeredBy ((atTurn_eq hat _).symm.trans h)
  | decode =>
    rw [exec, execDecode, atTurn_eq hat] at h
    exact runDecode_answeredBy h
  | reservedEncodeKind3 => cases h
  | frameHeader | tagData | tagAck | tagSyn | tagReserved =>
    exact runWire_answeredBy ((atTurn_eq hat _).symm.trans h)

/-- Settles O35: each instruction runs ENCODE, DECODE or the DECODE in flight, whose responses are known. -/
theorem commandsRaiseOnlyTheirOwnErrors : Obligations.CommandsRaiseOnlyTheirOwnErrors := by
  intro i s s' e g req rest hat h
  obtain ⟨out, r, rfl, ha, -⟩ := exec_answeredBy hat h
  refine ⟨_, r, State.answered_engine hat rest out r, rfl, ?_⟩
  cases i <;> exact ha

/-- Settles O43: every response is within its bounds, which are within the widths and within OUT. -/
theorem responseFieldsFitTheirWidths : Obligations.ResponseFieldsFitTheirWidths := by
  intro i s s' e g g' req rest r hc hat h he hp
  obtain ⟨out, r', rfl, -, hw⟩ := exec_answeredBy hat h
  rw [State.answered_engine hat] at he
  cases he
  cases hp
  exact ⟨hw, hw.covered_le hc, fun _ _ => hw.field_lt hc⟩

end Sys2Proof.Machine
end

section
/-! ## 20_memory: the host's writes to IN (R29, R130) -/

namespace Sys2Proof.Machine

theorem step_write {s : State} {e off : Nat} {bytes : List Byte} {rest : List Move}
    (h : s.agenda = .write e off bytes :: rest) : step s = hostWrite (s.setAgenda rest) e off bytes := by
  simp only [step, h]

theorem hostWrite_busy {s : State} {e off : Nat} {bytes : List Byte} {g : Engine} {req : Request}
    (he : s.engines[e]? = some g) (hp : g.phase = .busy req) : hostWrite s e off bytes = .fault .writeWhileBusy := by
  simp only [hostWrite, he, hp]

/-- A write to an engine that is not BUSY: its bytes must lie inside IN. -/
theorem hostWrite_not_busy {s : State} {e off : Nat} {bytes : List Byte} {g : Engine} (he : s.engines[e]? = some g)
    (hp : ∀ req, g.phase ≠ .busy req) : hostWrite s e off bytes = if off + bytes.length ≤ s.cfg.maxInLen
      then .next (s.setEngine e { g with inMem := g.inMem.writeN off bytes }) else .fault .writeOutsideIn := by
  simp only [hostWrite, he]
  cases hg : g.phase with
  | busy req => exact absurd hg (hp req)
  | idle | done => rfl

/-- Settles O47: the front move is the write, and a block write changes the bytes of its block only. -/
theorem hostWriteChangesExactlyItsBytesOfIn : Obligations.HostWriteChangesExactlyItsBytesOfIn := by
  intro s e off bytes g rest ha he
  have he' : (s.setAgenda rest).engines[e]? = some g := he
  rw [step_write ha]
  refine ⟨fun _ hp => hostWrite_busy he' hp, fun hp hl => ?_, fun hp hl hw => ?_⟩
  · exact (hostWrite_not_busy he' hp).trans (if_neg hl.not_ge)
  · exact ⟨g.inMem.writeN off bytes, (hostWrite_not_busy he' hp).trans (if_pos hl), Memory.readN_writeN_same _ _ _ hw,
      fun _ h => Memory.read_writeN_outside _ _ _ _ h⟩

end Sys2Proof.Machine
end

section
/-! ## 20_memory: every instruction answers with a reply made from its engine's IN (R40, R41, R44, R47) -/

namespace Sys2Proof.Machine

/-! ### One reply for every instruction -/

/-- At each turn of the request, under these parameters and with this IN, the instruction gives the reply, which covers the
bytes it writes: engine, OUT, other engines and moves to come do not enter. -/
structure Replies (i : Instr) (c : Config) (req : Request) (inp : Memory) (a : Reply) : Prop where
  covered : a.rsp.covered = a.bytes.length
  exec_eq : ∀ {s : State} {e : Nat} {g : Engine} {rest : List Move}, s.AtTurn e g req rest → s.cfg = c → g.inMem = inp →
    exec i s = .next (s.replied ⟨e, g, req, rest⟩ a)

/-- An instruction that answers a next state ran at some engine's turn. -/
theorem exec_next_atTurn {i : Instr} {s s' : State} (h : exec i s = .next s') :
    ∃ e g req rest, s.AtTurn e g req rest := by
  cases i with
  | reservedEncodeKind3 => cases h
  | encodeData | encodeAck | encodeSyn | decode | frameHeader | tagData | tagAck | tagSyn | tagReserved =>
    obtain ⟨t, ht, -⟩ := atTurn_next h
    exact ⟨_, _, _, _, atTurn_of_turn ht⟩

theorem replies_of_command {i : Instr} {n : Nat} {seq : Seq} {k : BitVec 2} {s s' : State} {e : Nat} {g : Engine}
    {req : Request} {rest : List Move} (hat : s.AtTurn e g req rest) (h : exec i s = .next s')
    (hi : i ∈ [Instr.encodeData seq n, Instr.encodeAck seq n, Instr.encodeSyn seq n, Instr.decode k n]) :
    ∃ a, Replies i s.cfg req g.inMem a := by
  obtain ⟨f, hcov, hf⟩ := exec_command hi
  rw [hf s e g req rest hat] at h
  split at h
  · cases h
  · rename_i hl
    refine ⟨f (g.inMem.readN 0 n), hcov _, fun hat' hc hin => ?_⟩
    rw [hf _ _ _ _ _ hat', hc, hin, if_neg hl]

/-- A wire word is the DECODE in flight on IN with the word at its place (log 7). -/
theorem replies_of_wire {i : Instr} {off : Nat} {bytes : List Byte} {s s' : State} {e : Nat} {g : Engine}
    {req : Request} {rest : List Move} (hat : s.AtTurn e g req rest) (h : exec i s = .next s')
    (hi : ∀ s, exec i s = atTurn s (runWire off bytes s)) : ∃ a, Replies i s.cfg req g.inMem a := by
  rw [hi, atTurn_eq hat, runWire] at h
  split at h
  · rename_i hop
    rw [runDecode_eq] at h
    split at h
    · cases h
    · rename_i hl
      refine ⟨decodeReply (decodeBuffer ((g.inMem.writeN off bytes).readN 0 req.len)), covered_decodeReply _,
        fun hat' hc hin => ?_⟩
      rw [hi, atTurn_eq hat', runWire, if_pos hop, runDecode_eq, hc, hin, if_neg hl]
  · cases h

/-- An instruction that answers at a turn gives a reply, and the same one wherever its request, IN and the parameters are. -/
theorem exec_replies {i : Instr} {s s' : State} {e : Nat} {g : Engine} {req : Request} {rest : List Move}
    (hat : s.AtTurn e g req rest) (h : exec i s = .next s') : ∃ a, Replies i s.cfg req g.inMem a := by
  cases i with
  | encodeData seq n | encodeAck seq n | encodeSyn seq n =>
    exact replies_of_command (n := n) (seq := seq) (k := 0) hat h (by simp)
  | decode k n => exact replies_of_command (n := n) (seq := 0) (k := k) hat h (by simp)
  | reservedEncodeKind3 => cases h
  | frameHeader | tagData | tagAck | tagSyn | tagReserved => exact replies_of_wire hat h fun _ => rfl

/-! ### The frame of an instruction -/

/-- An error covers no byte of OUT (R17). -/
theorem Response.covered_of_not_ok {r : Response} (h : r.ok = false) : r.covered = 0 := by
  cases r with
  | okEncode | okDecode => cases h
  | errTooShort | errInvalidTotalLen | errUnknownType | errTotalLenOverflow => rfl

/-- Settles O34: the instruction gave a reply at some engine's turn, which writes the bytes it covers and replaces that
engine only. -/
theorem everyInstructionWritesOnlyItsOwnResult : Obligations.EveryInstructionWritesOnlyItsOwnResult := by
  intro i s s' h
  obtain ⟨e, g, req, rest, hat⟩ := exec_next_atTurn h
  obtain ⟨a, ha⟩ := exec_replies hat h
  obtain rfl := Host.Outcome.next.inj (h.symm.trans (ha.exec_eq hat rfl rfl))
  refine ⟨e, g, req, rest, g.outMem.writeN 0 a.bytes, a.rsp, hat, State.answered_engine hat _ _ _, fun b hb => ?_,
    fun hr => ?_, fun e' he' => List.getElem?_set_ne he'.symm, List.length_set, rfl, rfl, rfl⟩
  · rw [ha.covered, ← Nat.zero_add a.bytes.length] at hb
    exact Memory.read_writeN_outside _ _ _ _ (.inr hb)
  · have hnil : a.bytes = [] := List.length_eq_zero_iff.mp (ha.covered.symm.trans (Response.covered_of_not_ok hr))
    rw [hnil, Memory.writeN]

/-! ### The same request twice -/

/-- Reading one byte of a block just written. -/
theorem Memory.read_writeN_inside (bytes : List Byte) (m : Memory) (a k : Nat) (hm : m.wf) (hk : k < bytes.length) :
    (m.writeN a bytes).read (a + k) = bytes.getD k 0 := by
  rw [← Memory.getD_readN _ hk 0, Memory.readN_writeN_same _ _ _ hm]

/-- Writing a block a second time changes no byte. -/
theorem Memory.read_writeN_writeN (bytes : List Byte) (m : Memory) (a b : Nat) (hm : m.wf) :
    ((m.writeN a bytes).writeN a bytes).read b = (m.writeN a bytes).read b := by
  by_cases hb : b < a ∨ a + bytes.length ≤ b
  · exact Memory.read_writeN_outside _ _ _ _ hb
  · obtain ⟨k, rfl⟩ := Nat.exists_eq_add_of_le (show a ≤ b by omega)
    have hk : k < bytes.length := by omega
    rw [Memory.read_writeN_inside _ _ _ _ (Memory.wf_writeN hm a bytes) hk, Memory.read_writeN_inside _ _ _ _ hm hk]

/-- It is still the engine's turn when its OUT has other contents. -/
theorem State.AtTurn.withOut {s : State} {e : Nat} {g : Engine} {req : Request} {rest : List Move}
    (h : s.AtTurn e g req rest) (out : Memory) :
    (s.setEngine e { g with outMem := out }).AtTurn e { g with outMem := out } req rest := by
  obtain ⟨ha, he, hp⟩ := h
  obtain ⟨hlt, -⟩ := List.getElem?_eq_some_iff.mp he
  exact ⟨ha, List.getElem?_set_self hlt, hp⟩

/-- Settles O37: both runs give one reply, since IN is the same, and its bytes are written over themselves. -/
theorem commandsAreIdempotent : Obligations.CommandsAreIdempotent := by
  intro s e g req rest i out r hat hw h
  obtain ⟨a, ha⟩ := exec_replies hat h
  obtain ⟨rfl, rfl⟩ := State.answered_inj hat (Host.Outcome.next.inj (h.symm.trans (ha.exec_eq hat rfl rfl)))
  exact ⟨_, ha.exec_eq (hat.withOut _) rfl rfl, fun b => Memory.read_writeN_writeN _ _ _ _ hw⟩

/-! ### Two engines -/

theorem run_succ_of_step {s s' : State} (h : step s = .next s') (k : Nat) :
    Sys2Proof.core.run (k + 1) s = Sys2Proof.core.run k s' := by
  have hstep : Sys2Proof.core.step s = .next s' := h
  simp only [Host.Core.run, hstep]

/-- An admitted request gives a reply. -/
theorem replies_of_admitted {s : State} {e : Nat} {g : Engine} {req : Request} {rest : List Move}
    (hat : s.AtTurn e g req rest) (hr : req.refusal? s.cfg = none) : ∃ a, Replies req.instr s.cfg req g.inMem a := by
  obtain ⟨out, r, h⟩ := admittedRequestsEndInAResponse s e g req rest hat hr
  exact exec_replies hat ((step_eq_exec hat).symm.trans h)

/-- Two execute steps of different engines give both replies, the second engine's turn being untouched by the first's. -/
theorem run_two_replies {s : State} {a b : Nat} {ga gb : Engine} {qa qb : Request} {rest : List Move} {ra rb : Reply}
    (hne : a ≠ b) (hat : s.AtTurn a ga qa (.execute b :: rest)) (hb : s.engines[b]? = some gb)
    (hpb : gb.phase = .busy qb) (hra : Replies qa.instr s.cfg qa ga.inMem ra)
    (hrb : Replies qb.instr s.cfg qb gb.inMem rb) :
    Sys2Proof.core.run 2 s = .next ((s.replied ⟨a, ga, qa, .execute b :: rest⟩ ra).replied ⟨b, gb, qb, rest⟩ rb) := by
  have hat' : (s.replied ⟨a, ga, qa, .execute b :: rest⟩ ra).AtTurn b gb qb rest :=
    ⟨rfl, (List.getElem?_set_ne hne).trans hb, hpb⟩
  rw [run_succ_of_step ((step_eq_exec hat).trans (hra.exec_eq hat rfl rfl)),
    run_succ_of_step ((step_eq_exec hat').trans (hrb.exec_eq hat' rfl rfl))]
  rfl

/-- The replies of two engines can be given in either order. -/
theorem State.replied_comm (s : State) {a b : Nat} (hne : a ≠ b) (ga gb : Engine) (qa qb : Request)
    (ms msa msb rest : List Move) (ra rb : Reply) :
    (s.replied ⟨a, ga, qa, msa⟩ ra).replied ⟨b, gb, qb, rest⟩ rb
      = ((s.setAgenda ms).replied ⟨b, gb, qb, msb⟩ rb).replied ⟨a, ga, qa, rest⟩ ra := by
  simp only [State.replied, State.answered, State.setAgenda]
  rw [List.set_comm _ _ hne]

/-- Settles O38: each engine gives the reply made from its own IN, in either order, and the two replace different engines. -/
theorem executeStepsOfTwoEnginesCommute : Obligations.ExecuteStepsOfTwoEnginesCommute := by
  intro s a b ga gb qa qb rest hne hag ha hpa hra hb hpb hrb
  have hat : s.AtTurn a ga qa (.execute b :: rest) := ⟨hag, ha, hpa⟩
  have hat' : (s.setAgenda (.execute b :: .execute a :: rest)).AtTurn b gb qb (.execute a :: rest) := ⟨rfl, hb, hpb⟩
  obtain ⟨xa, hxa⟩ := replies_of_admitted hat hra
  obtain ⟨xb, hxb⟩ := replies_of_admitted hat' hrb
  refine ⟨_, run_two_replies hne hat hb hpb hxa hxb, ?_⟩
  rw [run_two_replies hne.symm hat' ha hpa hxb hxa, ← State.replied_comm s hne]

end Sys2Proof.Machine
end

section
/-! ## 30_encoding: the header word H and its bytes (R54) -/

namespace Sys2Proof

theorem beNat_append (xs ys : List Byte) : beNat (xs ++ ys) = beNat xs * 256 ^ ys.length + beNat ys := by
  induction xs with
  | nil => simp [beNat]
  | cons x xs ih =>
    rw [List.cons_append, beNat, beNat, ih, List.length_append, Nat.pow_add]
    ring

/-- H, from its three fields (R54). -/
abbrev headerWord (totalLen : BitVec 32) (tag : Byte) (seq : Seq) : BitVec 104 := totalLen ++ tag ++ seq

theorem toNat_headerWord (totalLen : BitVec 32) (tag : Byte) (seq : Seq) :
    (headerWord totalLen tag seq).toNat = totalLen.toNat * 2 ^ 72 + tag.toNat * 2 ^ 64 + seq.toNat := by
  have hseq := seq.isLt
  have htag := tag.isLt
  rw [headerWord, BitVec.toNat_append, BitVec.toNat_append, ← Nat.shiftLeft_add_eq_or_of_lt htag,
    ← Nat.shiftLeft_add_eq_or_of_lt hseq, Nat.shiftLeft_eq, Nat.shiftLeft_eq]
  ring

/-- The value of a header's bytes is H (R54). -/
theorem beNat_headerBytes (totalLen : BitVec 32) (tag : Byte) (seq : Seq) :
    beNat (Machine.headerBytes totalLen.toNat tag seq) = (headerWord totalLen tag seq).toNat := by
  have hlen := totalLen.isLt
  have hseq := seq.isLt
  simp only [Machine.headerBytes, beNat_append, beNat_bytesBE, beNat, toNat_headerWord, Machine.length_bytesBE,
    List.length_singleton, List.length_nil]
  omega

/-- The three fields of H are those it is made of (R54). -/
theorem fields_headerWord (totalLen : BitVec 32) (tag : Byte) (seq : Seq) :
    (headerWord totalLen tag seq).extractLsb' 72 32 = totalLen ∧
      (headerWord totalLen tag seq).extractLsb' 64 8 = tag ∧ (headerWord totalLen tag seq).extractLsb' 0 64 = seq := by
  have hlen := totalLen.isLt
  have htag := tag.isLt
  have hseq := seq.isLt
  refine ⟨?_, ?_, ?_⟩ <;> apply BitVec.eq_of_toNat_eq <;>
    rw [BitVec.extractLsb'_toNat, toNat_headerWord, Nat.shiftRight_eq_div_pow] <;> omega

/-- H is made of its three fields (R54). -/
theorem headerWord_fields (h : BitVec 104) :
    headerWord (h.extractLsb' 72 32) (h.extractLsb' 64 8) (h.extractLsb' 0 64) = h := by
  rw [headerWord, BitVec.extractLsb'_append_extractLsb'_eq_extractLsb' (show 72 = 64 + 8 from rfl),
    BitVec.extractLsb'_append_extractLsb'_eq_extractLsb' (show 64 = 0 + 64 from rfl), BitVec.extractLsb'_eq_self]

/-- Which bytes decode as a header: the 13 bytes of that header, and no others (R54, R60). -/
theorem decodeHeader_eq_ok {bytes : List Byte} {i : Instr} : decodeHeader bytes = .ok i ↔
    ∃ totalLen tag seq, i = .frameHeader totalLen tag seq ∧ bytes = Machine.headerBytes totalLen.toNat tag seq := by
  constructor
  · intro h
    unfold decodeHeader at h
    split at h
    · rename_i hlen
      cases h
      refine ⟨_, _, _, rfl, ?_⟩
      have hlt := beNat_lt bytes
      rw [hlen] at hlt
      have hval : beNat (Machine.headerBytes _ _ _) = _ :=
        (beNat_headerBytes _ _ _).trans (congrArg BitVec.toNat (headerWord_fields (BitVec.ofNat 104 (beNat bytes))))
      rw [BitVec.toNat_ofNat, Nat.mod_eq_of_lt (show _ < 2 ^ 104 from hlt)] at hval
      rw [← bytesBE_beNat (Machine.headerBytes _ _ _), hval, Machine.length_headerBytes, ← hlen, bytesBE_beNat]
    · cases h
  · rintro ⟨totalLen, tag, seq, rfl, rfl⟩
    obtain ⟨h1, h2, h3⟩ := fields_headerWord totalLen tag seq
    simp only [decodeHeader, Machine.length_headerBytes, beNat_headerBytes, BitVec.ofNat_toNat, BitVec.setWidth_eq, h1, h2,
      h3, if_true]

theorem getElem?_bytesBE {n k : Nat} (v : Nat) (h : k < n) :
    (bytesBE n v)[k]? = some (BitVec.ofNat 8 (v / 256 ^ (n - 1 - k))) := by
  induction n generalizing k with
  | zero => omega
  | succ n ih =>
    cases k with
    | zero => rfl
    | succ k =>
      rw [bytesBE, List.getElem?_cons_succ, ih (by omega)]
      congr 4
      omega

/-- Frame byte k holds H[103 − 8k : 96 − 8k] (R54). -/
theorem getElem?_bytesBE_header (h : BitVec 104) {k : Nat} (hk : k ≤ 12) :
    (bytesBE 13 h.toNat)[k]? = some (h.extractLsb' (96 - 8 * k) 8) := by
  have hexp : 96 - 8 * k = 8 * (13 - 1 - k) := by omega
  rw [getElem?_bytesBE _ (by omega), hexp]
  congr 1
  apply BitVec.eq_of_toNat_eq
  rw [BitVec.toNat_ofNat, BitVec.extractLsb'_toNat, Nat.shiftRight_eq_div_pow, Nat.pow_mul]

/-- A byte of a field of H is a byte of H. -/
theorem byte_of_field (h : BitVec 104) {start len k : Nat} (hk : k + 8 ≤ len) :
    (h.extractLsb' start len).extractLsb' k 8 = h.extractLsb' (start + k) 8 := by
  apply BitVec.eq_of_getLsbD_eq
  intro j hj
  simp only [BitVec.getLsbD_extractLsb', hj, decide_true, Bool.true_and, show k + j < len by omega, Nat.add_assoc]

/-- Settles O6: byte k of the 13 is H[103 − 8k : 96 − 8k], and each field's bytes are bytes of H. -/
theorem headerBitsStandWhereTheFormatPutsThem : Obligations.HeaderBitsStandWhereTheFormatPutsThem := by
  intro h
  have hval : beNat (bytesBE 13 h.toNat) = h.toNat := by
    rw [beNat_bytesBE, Nat.mod_eq_of_lt (show _ < 256 ^ 13 from h.isLt)]
  refine ⟨hval, ?_, fun k hk => getElem?_bytesBE_header h hk, fun k hk => ?_, getElem?_bytesBE_header h (by decide),
    fun k h5 hk => ?_⟩
  · simp only [decode, decodeHeader, Machine.length_bytesBE, hval, BitVec.ofNat_toNat, BitVec.setWidth_eq, if_true]
  · rw [getElem?_bytesBE_header h (by omega), byte_of_field h (by omega)]
    congr 2
    omega
  · rw [getElem?_bytesBE_header h hk, BitVec.extractLsb'_extractLsb'_of_le (by omega)]

end Sys2Proof
end

section
/-! ## 30_encoding: decode and encode are inverse, and the rows of the opcode table (R54, R57, R58, R61, R63) -/

namespace Sys2Proof

/-! ### Command words -/

/-- CMD is its KIND field and its OP bit (R61). -/
theorem cmdWord_fields (cmd : BitVec 3) : cmdWord (kindField cmd) (BitVec.ofBool (opBit cmd)) = cmd := by
  revert cmd
  decide

/-- The fields of a DECODE's CMD (R61). -/
theorem fields_cmdWord_decode (kind : BitVec 2) :
    opBit (cmdWord kind 0b1#1) = true ∧ kindField (cmdWord kind 0b1#1) = kind := by
  revert kind
  decide

/-- Every command word gives back its CMD and length, and its SEQ unless it is a DECODE (R61, R63). -/
theorem encode_decodeCommand (cmd : BitVec 3) (seq : Seq) (len : Nat) :
    encode (decodeCommand cmd seq len) = .command cmd (if opBit cmd then 0 else seq) len := by
  have hcmd := cmdWord_fields cmd
  have hlast : ∀ k : BitVec 2, k ≠ 0b00#2 → k ≠ 0b01#2 → k ≠ 0b10#2 → k = 0b11#2 := by decide
  unfold decodeCommand
  split_ifs with hop hData hAck hSyn
  · rw [hop] at hcmd
    exact congrArg (Words.command · 0 len) hcmd
  all_goals rw [Bool.not_eq_true] at hop; rw [hop] at hcmd
  · exact congrArg (Words.command · seq len) (hData ▸ hcmd)
  · exact congrArg (Words.command · seq len) (hAck ▸ hcmd)
  · exact congrArg (Words.command · seq len) (hSyn ▸ hcmd)
  · exact congrArg (Words.command · seq len) (hlast _ hData hAck hSyn ▸ hcmd)

theorem wf_decodeCommand (cmd : BitVec 3) (seq : Seq) (len : Nat) : (decodeCommand cmd seq len).wf := by
  unfold decodeCommand
  split_ifs <;> trivial

/-! ### Type bytes -/

/-- The instruction of a type byte: the byte is its word, and a reserved byte is 0x03 to 0xFF (R57, R58). -/
theorem decodeTag_eq_ok {bytes : List Byte} {i : Instr} (h : decodeTag bytes = .ok i) : i.wf ∧ encode i = .tag bytes := by
  unfold decodeTag at h
  split at h
  · rename_i t
    have hreserved : ∀ t : Byte, t ≠ 0x00#8 → t ≠ 0x01#8 → t ≠ 0x02#8 → 3 ≤ t.toNat := by decide
    split_ifs at h with hData hAck hSyn <;> cases h
    · exact ⟨trivial, by rw [encode, hData]⟩
    · exact ⟨trivial, by rw [encode, hAck]⟩
    · exact ⟨trivial, by rw [encode, hSyn]⟩
    · exact ⟨hreserved t hData hAck hSyn, rfl⟩
  · cases h

theorem decodeTag_reserved {t : Byte} (h : 3 ≤ t.toNat) : decodeTag [t] = .ok (.tagReserved t) := by
  have hne : ∀ t : Byte, 3 ≤ t.toNat → t ≠ 0x00#8 ∧ t ≠ 0x01#8 ∧ t ≠ 0x02#8 := by decide
  obtain ⟨hData, hAck, hSyn⟩ := hne t h
  simp only [decodeTag, if_neg hData, if_neg hAck, if_neg hSyn]

/-! ### The two directions -/

/-- Settles O3, by the instruction: for DECODE by its CMD's fields, for a header by the fields of H, for a reserved type byte
because it is none of the three tags. -/
theorem decodingAnEncodedInstructionGivesItBack : Obligations.DecodingAnEncodedInstructionGivesItBack := by
  intro i hw
  cases i with
  | encodeData | encodeAck | encodeSyn | reservedEncodeKind3 | tagData | tagAck | tagSyn => rfl
  | decode kindBits blen =>
    obtain ⟨hop, hkind⟩ := fields_cmdWord_decode kindBits
    simp only [encode, decode, decodeCommand, hop, hkind, if_true]
  | frameHeader totalLen tag seq => exact decodeHeader_eq_ok.mpr ⟨totalLen, tag, seq, rfl, rfl⟩
  | tagReserved tag => exact decodeTag_reserved hw

/-- Settles O4, by the word's format: a command word is made of its fields, a header word of the fields of H, and a type byte
stands for itself. -/
theorem encodingADecodedWordGivesItBack : Obligations.EncodingADecodedWordGivesItBack := by
  intro w i h
  cases w with
  | command cmd seq len =>
    cases h
    refine ⟨wf_decodeCommand cmd seq len, ?_⟩
    rw [encode_decodeCommand]
    cases hop : opBit cmd with
    | false => exact .inl rfl
    | true => exact .inr ⟨cmd, seq, len, rfl, hop, rfl⟩
  | header bytes =>
    obtain ⟨totalLen, tag, seq, rfl, rfl⟩ := decodeHeader_eq_ok.mp h
    exact ⟨trivial, .inl rfl⟩
  | tag bytes =>
    obtain ⟨hw, he⟩ := decodeTag_eq_ok h
    exact ⟨hw, .inl he⟩

/-! ### The rows of the opcode table -/

/-- Every instruction's words meet its row and no other. -/
theorem tableRow_statement (i : Instr) : Laws.TableRow.Statement i := by
  cases i with
  | encodeData => exact Laws.TableRow.encodeData _ _
  | encodeAck => exact Laws.TableRow.encodeAck _ _
  | encodeSyn => exact Laws.TableRow.encodeSyn _ _
  | decode => exact Laws.TableRow.decode _ _
  | reservedEncodeKind3 => exact Laws.TableRow.reservedEncodeKind3 _ _
  | frameHeader => exact Laws.TableRow.frameHeader _ _ _
  | tagData => exact Laws.TableRow.tagData
  | tagAck => exact Laws.TableRow.tagAck
  | tagSyn => exact Laws.TableRow.tagSyn
  | tagReserved => exact Laws.TableRow.tagReserved _

/-- A row looks at the CMD of a command word only. -/
theorem Row.covers_command (r : Row) (cmd : BitVec 3) (seq seq' : Seq) (len : Nat) :
    r.covers (.command cmd seq len) = r.covers (.command cmd seq' len) := by
  cases r <;> rfl

/-- Settles O5: the word is the one its instruction encodes to, but for a SEQ that no row looks at, and that word meets exactly
the instruction's row. -/
theorem everyDecodedWordMeetsExactlyItsRow : Obligations.EveryDecodedWordMeetsExactlyItsRow := by
  intro w i h r
  obtain ⟨hw, rfl | ⟨cmd, seq, len, rfl, -, he⟩⟩ := encodingADecodedWordGivesItBack w i h
  · exact tableRow_statement i hw r
  · rw [r.covers_command cmd seq 0 len, ← he]
    exact tableRow_statement i hw r

/-! ### Words written by hand -/

/-- Settles O1: each CMD by evaluation; SEQ and length are handed on, and DECODE's KIND bits are not used. -/
theorem commandWordsNameTheirCommands : Obligations.CommandWordsNameTheirCommands :=
  fun _ _ _ _ _ => ⟨rfl, rfl, rfl, rfl, rfl, rfl, rfl, rfl, rfl, rfl⟩

/-- Settles O2: each type byte by evaluation, the header because its 13 bytes are those of these three fields. -/
theorem wireWordsDecodeAsWritten : Obligations.WireWordsDecodeAsWritten :=
  ⟨rfl, rfl, rfl, rfl, rfl, decodeHeader_eq_ok.mpr ⟨16#32, 0x02#8, 12345#64, rfl, by decide⟩⟩

end Sys2Proof
end

section
/-! ## 30_encoding: a frame that ENCODE makes is a buffer that DECODE accepts (R56, R79, R94, R95) -/

namespace Sys2Proof.Machine

/-- The fields of a buffer that begins with a header (R53, R59). -/
theorem fields_headerBytes_append (totalLen : Nat) (tag : Byte) (seq : Seq) (payload : List Byte) :
    (headerBytes totalLen tag seq ++ payload).take 4 = bytesBE 4 totalLen ∧
      (headerBytes totalLen tag seq ++ payload).getD 4 0 = tag ∧
      ((headerBytes totalLen tag seq ++ payload).drop 5).take 8 = bytesBE 8 seq.toNat ∧
      (headerBytes totalLen tag seq ++ payload).drop 13 = payload := by
  refine ⟨?_, ?_, ?_, List.drop_left' (length_headerBytes ..)⟩
  · rw [headerBytes, List.append_assoc, List.append_assoc, List.take_left' (length_bytesBE ..)]
  · rw [headerBytes, List.append_assoc, List.append_assoc, List.getD_append_right _ _ _ _ (length_bytesBE ..).le]
    simp
  · rw [headerBytes, List.append_assoc _ _ payload, List.drop_left' (by simp), List.take_left' (length_bytesBE ..)]

/-- ENCODE's frame, where there is one, is the header and the payload (R68, R71). -/
theorem encodeSegment_eq_ok {seg : Segment} {frame : List Byte} : encodeSegment seg = .ok frame ↔
    13 + seg.payload.length ≤ maxTotalLen ∧
      frame = headerBytes (13 + seg.payload.length) seg.kind.tag seg.sequence ++ seg.payload := by
  unfold encodeSegment
  split
  · exact iff_of_false nofun (by omega)
  · simp only [Except.ok.injEq, headerBytes]
    exact ⟨fun h => ⟨by omega, h.symm⟩, fun ⟨_, h⟩ => h.symm⟩

theorem length_of_encodeSegment {seg : Segment} {frame : List Byte} (h : encodeSegment seg = .ok frame) :
    frame.length = 13 + seg.payload.length := by
  obtain ⟨-, rfl⟩ := encodeSegment_eq_ok.mp h
  rw [List.length_append, length_headerBytes]

/-- The length field of a frame is its length (R95). -/
theorem declaredLen_of_encodeSegment {seg : Segment} {frame : List Byte} (h : encodeSegment seg = .ok frame) :
    declaredLen frame = frame.length := by
  rw [length_of_encodeSegment h]
  obtain ⟨hl, rfl⟩ := encodeSegment_eq_ok.mp h
  obtain ⟨htake, -, -, -⟩ :=
    fields_headerBytes_append (13 + seg.payload.length) seg.kind.tag seg.sequence seg.payload
  rw [declaredLen, htake, beNat_bytesBE, Nat.mod_eq_of_lt (show _ < 256 ^ 4 from Nat.lt_succ_of_le hl)]

/-- The round trip of the codec (R94). -/
theorem decodeBuffer_of_encodeSegment {seg : Segment} {frame : List Byte} (h : encodeSegment seg = .ok frame) :
    decodeBuffer frame = .ok seg := by
  have hlen := length_of_encodeSegment h
  have hdecl := (declaredLen_of_encodeSegment h).trans hlen
  obtain ⟨-, rfl⟩ := encodeSegment_eq_ok.mp h
  obtain ⟨-, htag, hseq, hpay⟩ :=
    fields_headerBytes_append (13 + seg.payload.length) seg.kind.tag seg.sequence seg.payload
  rw [decodeBuffer, hlen, hdecl, if_neg (by omega), if_neg (by omega), htag, kindOfTag_eq_some.mpr rfl, hseq, hpay,
    beNat_bytesBE, Nat.mod_eq_of_lt (show _ < 256 ^ 8 from seg.sequence.isLt), Nat.add_sub_cancel_left, List.take_length]
  simp

theorem isFrame_of_encodeSegment {seg : Segment} {frame : List Byte} (h : encodeSegment seg = .ok frame) :
    IsFrame frame.length frame :=
  ⟨rfl, declaredLen_of_encodeSegment h, seg, decodeBuffer_of_encodeSegment h⟩

/-! ### Every step keeps the frames -/

/-- What a DONE engine whose response is OK_ENCODE holds in OUT. -/
def Engine.FrameValid (g : Engine) : Prop := ∀ n, g.phase = .done (.okEncode n) → IsFrame n (g.outMem.readN 0 n)

/-- An ENCODE leaves a frame in OUT. -/
theorem Answer.isFrame {c : Config} {g : Engine} {req : Request} {out : Memory} {r : Response}
    (h : Answer c g req out r) (hw : g.outMem.wf) {n : Nat} (hr : r = .okEncode n) : IsFrame n (out.readN 0 n) := by
  cases h with
  | totalLenOverflow | tooShort | invalidTotalLen | unknownType | decoded => cases hr
  | encoded kind _ _ ht =>
    cases hr
    have hlen : (g.inMem.readN 0 req.len).length = req.len := Memory.length_readN ..
    have henc : encodeSegment ⟨kind, req.seq, g.inMem.readN 0 req.len⟩ = .ok _ :=
      encodeSegment_eq_ok.mpr ⟨by rwa [hlen], rfl⟩
    have hout := readN_writeFrame g.outMem kind req.seq (g.inMem.readN 0 req.len) hw
    have hframe := isFrame_of_encodeSegment henc
    rw [length_of_encodeSegment henc, ← hout, hlen] at hframe
    exact hframe

/-- No effect on an engine breaks its frame: only an answer makes it DONE, and only an answer changes OUT. -/
theorem EngineEffect.frameValid {s : State} {e : Nat} {g g' : Engine} (h : EngineEffect s e g g') (hw : g.outMem.wf)
    (hf : g.FrameValid) : g'.FrameValid := by
  intro n hn
  cases h with
  | unchanged | written => exact hf n hn
  | issued | taken => cases hn
  | answered _ hans => exact hans.isFrame hw (Phase.done.inj hn)
  | reset _ hp => rw [hp] at hn; cases hn

theorem StepEffect.length_engines {s s' : State} (h : StepEffect s s') : s'.engines.length = s.engines.length := by
  cases h with
  | stutter | lines => rfl
  | answer | issue | take | write => exact List.length_set
  | reset => exact resetEngines_length _ _ _

/-- Every engine after a step was there before it. -/
theorem StepEffect.exists_engine {s s' : State} (h : StepEffect s s') {g' : Engine} (hg : g' ∈ s'.engines) :
    ∃ e g, s.engines[e]? = some g ∧ EngineEffect s e g g' := by
  obtain ⟨e, he'⟩ := List.mem_iff_getElem?.mp hg
  obtain ⟨hlt, -⟩ := List.getElem?_eq_some_iff.mp he'
  rw [h.length_engines] at hlt
  exact ⟨e, _, List.getElem?_eq_getElem hlt, h.engine (List.getElem?_eq_getElem hlt) he'⟩

/-- A delivery after a step was there before it, or is the response just taken with the OUT bytes it covers. -/
theorem StepEffect.delivery {s s' : State} (h : StepEffect s s') {d : Delivery} (hd : d ∈ s'.delivered) :
    d ∈ s.delivered ∨ ∃ g, g ∈ s.engines ∧ g.phase = .done d.rsp ∧ d.bytes = g.outMem.readN 0 d.rsp.covered := by
  cases h with
  | stutter | lines | answer | issue | write | reset => exact .inl hd
  | take _ he hp =>
    rcases List.mem_append.mp hd with hd | hd
    · exact .inl hd
    · obtain rfl := List.mem_singleton.mp hd
      exact .inr ⟨_, List.mem_of_getElem? he, hp, rfl⟩

/-- Settles O58: an engine's frame is broken by no effect on it, and a delivered frame is one that was waiting in OUT. -/
theorem stepKeepsEveryEncodedFrameValid : Obligations.StepKeepsEveryEncodedFrameValid := by
  intro s s' hinv ⟨hEng, hDel⟩ h
  have hx := step_effect h
  refine ⟨fun g' hg' => ?_, fun d hd n hn => ?_⟩
  · obtain ⟨e, g, he, hge⟩ := hx.exists_engine hg'
    obtain ⟨-, -, hout, -⟩ := hinv.engine_wf he
    exact hge.frameValid hout (hEng g (List.mem_of_getElem? he))
  · rcases hx.delivery hd with hd | ⟨g, hg, hp, hb⟩
    · exact hDel d hd n hn
    · rw [hb, hn, Response.covered_okEncode]
      exact hEng g hg n (hn ▸ hp)

end Sys2Proof.Machine
end

section
/-! ## 30_encoding: wire words are the DECODE in flight (R54, R57, R58, R80; log 7) -/

namespace Sys2Proof.Machine

/-! ### DECODE, one equation per outcome of R80 -/

theorem runDecode_tooShort {inp : Memory} {blen : Nat} {s : State} {t : Turn} (hl : blen ≤ s.cfg.maxInLen)
    (h : blen < 4) : runDecode inp blen s t = .next (s.answered t.engine t.eng t.rest t.eng.outMem .errTooShort) := by
  rw [runDecode, if_neg hl.not_gt, if_pos h]
  rfl

theorem runDecode_invalidTotalLen {inp : Memory} {blen : Nat} {s : State} {t : Turn} (hl : blen ≤ s.cfg.maxInLen)
    (h4 : 4 ≤ blen) (h : (totalLenAt inp).toNat < 13 ∨ blen < (totalLenAt inp).toNat) :
    runDecode inp blen s t
      = .next (s.answered t.engine t.eng t.rest t.eng.outMem (.errInvalidTotalLen (totalLenAt inp) blen)) := by
  rw [runDecode, if_neg hl.not_gt, if_neg h4.not_gt, if_pos h]
  rfl

theorem runDecode_unknownType {inp : Memory} {blen : Nat} {s : State} {t : Turn} (hl : blen ≤ s.cfg.maxInLen)
    (h13 : 13 ≤ (totalLenAt inp).toNat) (h : (totalLenAt inp).toNat ≤ blen) (htag : 3 ≤ (inp.read 4).toNat) :
    runDecode inp blen s t
      = .next (s.answered t.engine t.eng t.rest t.eng.outMem (.errUnknownType (inp.read 4))) := by
  rw [runDecode, if_neg hl.not_gt, if_neg (by omega), if_neg (by omega), kindOfTag_eq_none.mpr htag]
  rfl

/-- An accepted buffer with a payload of `n` bytes: they are copied to OUT, whose other bytes stay (R85, R86). -/
theorem runDecode_accepted {inp : Memory} {blen n : Nat} {s : State} {t : Turn} {kind : Kind}
    (hl : blen ≤ s.cfg.maxInLen) (hn : (totalLenAt inp).toNat = 13 + n) (h : 13 + n ≤ blen)
    (htag : inp.read 4 = kind.tag) (hw : t.eng.outMem.wf) :
    ∃ out, runDecode inp blen s t
        = .next (s.answered t.engine t.eng t.rest out (.okDecode kind (seqAt inp) n)) ∧
      out.readN 0 n = inp.readN 13 n ∧ ∀ a, n ≤ a → out.read a = t.eng.outMem.read a := by
  have hlen : (inp.readN 13 n).length = n := Memory.length_readN ..
  refine ⟨t.eng.outMem.writeN 0 (inp.readN 13 n), ?_, ?_, fun a ha => ?_⟩
  · rw [runDecode, if_neg hl.not_gt, if_neg (by omega), if_neg (by omega), kindOfTag_eq_some.mpr htag, hn,
      Nat.add_sub_cancel_left]
    rfl
  · have hsame := Memory.readN_writeN_same (inp.readN 13 n) t.eng.outMem 0 hw
    rwa [hlen] at hsame
  · exact Memory.read_writeN_outside _ _ _ _ (.inr (by omega))

/-! ### The buffer's fields, and what a word written into it changes -/

theorem toNat_totalLenAt (m : Memory) : (totalLenAt m).toNat = beNat (m.readN 0 4) := by
  rw [← declaredLen_readN m (le_refl 4), declaredLen, List.take_of_length_le (Memory.length_readN ..).le]

theorem toNat_seqAt (m : Memory) : (seqAt m).toNat = beNat (m.readN 5 8) := by
  have hlt := beNat_lt (m.readN 5 8)
  rw [Memory.length_readN] at hlt
  rw [seqAt, BitVec.toNat_ofNat, Nat.mod_eq_of_lt (show _ < 2 ^ 64 from hlt)]

/-- Writing into a space the bytes it already holds there changes no byte. -/
theorem Memory.read_writeN_readN {m : Memory} (h : m.wf) (a n b : Nat) :
    (m.writeN a (m.readN a n)).read b = m.read b := by
  have hlen : (m.readN a n).length = n := Memory.length_readN ..
  by_cases hb : b < a ∨ a + n ≤ b
  · exact Memory.read_writeN_outside _ _ _ _ (by rwa [hlen])
  · obtain ⟨k, rfl⟩ := Nat.exists_eq_add_of_le (show a ≤ b by omega)
    have hk : k < n := by omega
    rw [Memory.read_writeN_inside _ _ _ _ h (by rwa [hlen]), Memory.getD_readN _ hk]

/-- The buffer with a type byte in its place: the fields around it are those it had. -/
theorem fields_writeN_tag {m : Memory} (h : m.wf) (tag : Byte) :
    totalLenAt (m.writeN 4 [tag]) = totalLenAt m ∧ (m.writeN 4 [tag]).read 4 = tag ∧
      seqAt (m.writeN 4 [tag]) = seqAt m ∧ ∀ n, (m.writeN 4 [tag]).readN 13 n = m.readN 13 n := by
  have hout : ∀ b n, b + n ≤ 4 ∨ 5 ≤ b → (m.writeN 4 [tag]).readN b n = m.readN b n := fun b n hb =>
    Memory.readN_writeN_outside m [tag] 4 b n hb
  refine ⟨?_, ?_, ?_, fun n => hout 13 n (.inr (by decide))⟩
  · rw [totalLenAt, hout 0 4 (.inl (by decide)), totalLenAt]
  · exact Memory.read_writeN_inside [tag] m 4 0 h Nat.zero_lt_one
  · rw [seqAt, hout 5 8 (.inr (by decide)), seqAt]

/-- The fields of a buffer that begins with a header are the header's. -/
theorem fields_of_readN_header {m : Memory} {totalLen : BitVec 32} {tag : Byte} {seq : Seq}
    (h : m.readN 0 13 = headerBytes totalLen.toNat tag seq) :
    totalLenAt m = totalLen ∧ m.read 4 = tag ∧ seqAt m = seq := by
  obtain ⟨hlen, htag, hseq, -⟩ := fields_headerBytes_append totalLen.toNat tag seq []
  rw [List.append_nil, ← h] at hlen htag hseq
  replace hlen : m.readN 0 4 = bytesBE 4 totalLen.toNat := (m.take_drop_readN (k := 0) (by decide)).symm.trans hlen
  rw [Memory.getD_readN m (by decide)] at htag
  rw [m.take_drop_readN (by decide)] at hseq
  refine ⟨BitVec.eq_of_toNat_eq ?_, htag, BitVec.eq_of_toNat_eq ?_⟩
  · rw [toNat_totalLenAt, hlen, beNat_bytesBE, Nat.mod_eq_of_lt (show _ < 256 ^ 4 from totalLen.isLt)]
  · rw [toNat_seqAt, hseq, beNat_bytesBE, Nat.mod_eq_of_lt (show _ < 256 ^ 8 from seq.isLt)]

/-- The buffer with a header in its place: the fields are the header's, and the payload is the one it had. -/
theorem fields_writeN_header {m : Memory} (h : m.wf) (totalLen : BitVec 32) (tag : Byte) (seq : Seq) :
    totalLenAt (m.writeN 0 (headerBytes totalLen.toNat tag seq)) = totalLen ∧
      (m.writeN 0 (headerBytes totalLen.toNat tag seq)).read 4 = tag ∧
      seqAt (m.writeN 0 (headerBytes totalLen.toNat tag seq)) = seq ∧
      ∀ n, (m.writeN 0 (headerBytes totalLen.toNat tag seq)).readN 13 n = m.readN 13 n := by
  have hlen := length_headerBytes totalLen.toNat tag seq
  have hsame := Memory.readN_writeN_same (headerBytes totalLen.toNat tag seq) m 0 h
  rw [hlen] at hsame
  obtain ⟨ht, htag, hseq⟩ := fields_of_readN_header hsame
  exact ⟨ht, htag, hseq, fun n => Memory.readN_writeN_outside _ _ _ _ _ (.inr (by rw [hlen]))⟩

/-! ### A wire word at the turn of a request -/

/-- At the turn of a DECODE request a wire word is that DECODE, on IN with the word at its place. -/
theorem exec_wire_of_decode {i : Instr} {off : Nat} {bytes : List Byte}
    (hi : ∀ s, exec i s = atTurn s (runWire off bytes s))
    {s : State} {e : Nat} {g : Engine} {req : Request} {rest : List Move} (hat : s.AtTurn e g req rest)
    (hop : opBit req.cmd = true) :
    exec i s = runDecode (g.inMem.writeN off bytes) req.len s ⟨e, g, req, rest⟩ := by
  rw [hi, atTurn_eq hat, runWire, if_pos hop]

theorem exec_frameHeader (totalLen : BitVec 32) (tag : Byte) (seq : Seq) (s : State) :
    exec (.frameHeader totalLen tag seq) s = atTurn s (runWire 0 (headerBytes totalLen.toNat tag seq) s) := rfl

/-- The instruction of a type byte has the byte at offset 4. -/
theorem exec_of_decodeTag {t : Byte} {i : Instr} (h : decodeTag [t] = .ok i) (s : State) :
    exec i s = atTurn s (runWire 4 [t] s) := by
  simp only [decodeTag] at h
  split_ifs at h with hData hAck hSyn <;> cases h
  · rw [hData]; rfl
  · rw [hAck]; rfl
  · rw [hSyn]; rfl
  · rfl

/-- The step of a DECODE request is DECODE on the received buffer. -/
theorem step_eq_runDecode {s : State} {e : Nat} {g : Engine} {req : Request} {rest : List Move}
    (hat : s.AtTurn e g req rest) (hop : opBit req.cmd = true) :
    step s = runDecode g.inMem req.len s ⟨e, g, req, rest⟩ := by
  rw [step_eq_exec hat, Request.instr, decodeCommand, if_pos hop, exec, execDecode, atTurn_eq hat]

/-- A DECODE step is each wire word that the buffer already holds at the word's place. -/
theorem step_eq_exec_wire {i : Instr} {off n : Nat} {s : State} {e : Nat} {g : Engine} {req : Request}
    {rest : List Move} (hi : ∀ s, exec i s = atTurn s (runWire off (g.inMem.readN off n) s))
    (hat : s.AtTurn e g req rest) (hop : opBit req.cmd = true) (hw : g.inMem.wf) : step s = exec i s := by
  rw [step_eq_runDecode hat hop, exec_wire_of_decode hi hat hop]
  exact runDecode_congr (fun a => (Memory.read_writeN_readN hw off n a).symm) _ _ _

/-- Settles O9: the buffer's first 13 bytes are the bytes of the header they decode to. -/
theorem decodeStepIsItsHeaderWordsMeaning : Obligations.DecodeStepIsItsHeaderWordsMeaning := by
  intro s e g req rest bytes i hat hop hw hb hi
  obtain ⟨totalLen, tag, seq, rfl, hbytes⟩ := decodeHeader_eq_ok.mp hi
  refine step_eq_exec_wire (off := 0) (n := 13) (fun s => ?_) hat hop hw
  rw [exec_frameHeader, hb, hbytes]

/-- Settles O10: the buffer's byte at offset 4 is the one-byte word of the tag it decodes to. -/
theorem decodeStepIsItsTagWordsMeaning : Obligations.DecodeStepIsItsTagWordsMeaning := by
  intro s e g req rest i hat hop hw hi
  exact step_eq_exec_wire (off := 4) (n := 1) (exec_of_decodeTag hi) hat hop hw

/-- Settles O22: with the header in the buffer, DECODE reads the header's own fields and the payload IN has. -/
theorem headerWordIsDecoded : Obligations.HeaderWordIsDecoded := by
  intro s e g req rest totalLen tag seq hat hop hwi hwo hl
  obtain ⟨hlen, htag, hseq, hpay⟩ := fields_writeN_header hwi totalLen tag seq
  rw [exec_wire_of_decode (exec_frameHeader totalLen tag seq) hat hop]
  refine ⟨runDecode_tooShort hl, fun h4 h => ?_, fun h13 h h3 => ?_, fun h13 h kind hk => ?_⟩
  · rw [runDecode_invalidTotalLen hl h4 (by rwa [hlen]), hlen]
  · rw [runDecode_unknownType hl (by rwa [hlen]) (by rwa [hlen]) (by rwa [htag]), htag]
  · have hacc := runDecode_accepted (n := totalLen.toNat - 13) (t := ⟨e, g, req, rest⟩) hl (by rw [hlen]; omega)
      (by omega) (htag.trans hk) hwo
    rwa [hseq, hpay] at hacc

/-- Settles O23: with the type byte in the buffer, DECODE reads that byte and the fields IN has around it. -/
theorem kindTagWordsAreDecoded : Obligations.KindTagWordsAreDecoded := by
  intro s e g req rest i kind hat hop hwi hwo hl h13 h hi
  have hdec : decodeTag [kind.tag] = .ok i := by
    simp only [List.mem_cons, Prod.mk.injEq, List.not_mem_nil, or_false] at hi
    rcases hi with ⟨rfl, rfl⟩ | ⟨rfl, rfl⟩ | ⟨rfl, rfl⟩ <;> rfl
  obtain ⟨hlen, htag, hseq, hpay⟩ := fields_writeN_tag hwi kind.tag
  rw [exec_wire_of_decode (exec_of_decodeTag hdec) hat hop]
  rw [← toNat_totalLenAt] at h13 h ⊢
  obtain ⟨out, hx, hout, hrest⟩ := runDecode_accepted (n := (totalLenAt g.inMem).toNat - 13) (s := s)
    (t := ⟨e, g, req, rest⟩) hl (by rw [hlen]; omega) (by omega) htag hwo
  rw [hseq] at hx
  rw [hpay] at hout
  exact ⟨out, seqAt g.inMem, toNat_seqAt _, hx, hout, hrest⟩

/-- Settles O24: with the type byte in the buffer, DECODE's step 4 reads that byte. -/
theorem reservedTagWordIsUnknownType : Obligations.ReservedTagWordIsUnknownType := by
  intro s e g req rest tag hat hop hwi hl h13 h h3
  obtain ⟨hlen, htag, -, -⟩ := fields_writeN_tag hwi tag
  rw [← toNat_totalLenAt, ← hlen] at h13 h
  rw [exec_wire_of_decode (exec_of_decodeTag (decodeTag_reserved h3)) hat hop,
    runDecode_unknownType hl h13 h (by rwa [htag]), htag]

/-- Settles O26: each of the five wire words runs only a request whose OP bit is DECODE. -/
theorem wireWordsNeedADecodeRequest : Obligations.WireWordsNeedADecodeRequest := by
  intro s e g req rest totalLen tag seq i hat hop hi
  have hwire : ∃ off bytes, exec i s = atTurn s (runWire off bytes s) := by
    simp only [List.mem_cons, List.not_mem_nil, or_false] at hi
    rcases hi with rfl | rfl | rfl | rfl | rfl <;> exact ⟨_, _, rfl⟩
  obtain ⟨off, bytes, hx⟩ := hwire
  rw [hx, atTurn_eq hat, runWire, hop]
  rfl

end Sys2Proof.Machine
end

section
/-! ## 30_encoding: requests that are refused (R117) and program lines (R66) -/

namespace Sys2Proof.Machine

/-! ### Refusal -/

/-- The reason for which a request is refused (R117; log 10 for the order). -/
theorem Request.refusal?_eq_some {c : Config} {req : Request} (h : req.cmd = 0b110#3 ∨ c.maxInLen < req.len) :
    req.refusal? c = some (if req.cmd = 0b110#3 then .reservedKindCode else .requestTooLong) := by
  unfold Request.refusal?
  by_cases hcmd : req.cmd = 0b110#3
  · rw [if_pos hcmd, if_pos hcmd]
  · rw [if_neg hcmd, if_neg hcmd, if_pos (h.resolve_left hcmd)]

theorem hostIssue_refused {s : State} {e : Nat} {g : Engine} {req : Request} {why : Refusal}
    (he : s.engines[e]? = some g) (hp : g.phase = .idle) (hr : req.refusal? s.cfg = some why) :
    hostIssue s e req = .refused why := by
  simp only [hostIssue, he, hp, hr]

theorem Request.instr_of_reserved {req : Request} (h : req.cmd = 0b110#3) :
    req.instr = .reservedEncodeKind3 req.seq req.len := by
  rw [Request.instr, h]
  rfl

/-- A refused request does not execute either: it is refused for the same reason (R117; log 10). -/
theorem step_refused {s : State} {e : Nat} {g : Engine} {req : Request} {rest : List Move} (hat : s.AtTurn e g req rest)
    (h : req.cmd = 0b110#3 ∨ s.cfg.maxInLen < req.len) :
    step s = .refused (if req.cmd = 0b110#3 then .reservedKindCode else .requestTooLong) := by
  rw [step_eq_exec hat]
  by_cases hcmd : req.cmd = 0b110#3
  · rw [if_pos hcmd, Request.instr_of_reserved hcmd]
    rfl
  · have hl := h.resolve_left hcmd
    rw [if_neg hcmd]
    rcases req.instr_cases with ⟨kind, hi⟩ | ⟨bits, hi⟩ | hi
    · rw [hi, exec_encodeOf, atTurn_eq hat, runEncode_eq, if_pos hl]
    · rw [hi, exec, execDecode, atTurn_eq hat, runDecode_eq, if_pos hl]
    · exact absurd (Request.cmd_of_reserved hi) hcmd

/-! ### Lines -/

theorem step_lines {s : State} {ls : List HostLine} {order : List Nat} {rest : List Move}
    (h : s.agenda = .lines ls order :: rest) : step s = hostLines s ls order rest := by
  simp only [step, h]

/-- Lines whose bytes can all be read become their moves (R66). -/
theorem step_lines_of_some {s : State} {ls : List HostLine} {order : List Nat} {rest : List Move}
    {bss : List (List Byte)} (ha : s.agenda = .lines ls order :: rest)
    (h : ls.map (fun l => l.bytes.eval (previousOut s l.engine)) = bss.map some) :
    step s = .next (s.setAgenda ((ls.zip bss).flatMap (fun p => p.1.issueMoves s.cfg p.2) ++ order.map Move.execute ++
      ls.map (fun l => Move.take l.engine) ++ rest)) := by
  simp only [step_lines ha, hostLines, issueMoves_of_some s ls bss h]

theorem step_lines_of_none {s : State} {ls : List HostLine} {order : List Nat} {rest : List Move}
    (ha : s.agenda = .lines ls order :: rest) (h : ∃ l ∈ ls, l.bytes.eval (previousOut s l.engine) = none) :
    step s = .fault .outNotReadable := by
  simp only [step_lines ha, hostLines, issueMoves_of_none s ls h]

/-- Where each line's bytes can be read, they are a list of byte strings. -/
theorem exists_bytes_of_readable {s : State} {ls : List HostLine}
    (h : ∀ l ∈ ls, l.bytes.eval (previousOut s l.engine) ≠ none) :
    ∃ bss : List (List Byte), ls.map (fun l => l.bytes.eval (previousOut s l.engine)) = bss.map some := by
  have hrange : ls.map (fun l => l.bytes.eval (previousOut s l.engine)) ∈ Set.range (List.map some) := by
    rw [Set.range_list_map]
    intro x hx
    obtain ⟨l, hl, rfl⟩ := List.mem_map.mp hx
    exact Option.ne_none_iff_exists.mp (h l hl)
  obtain ⟨bss, hbss⟩ := hrange
  exact ⟨bss, hbss.symm⟩

theorem run_succ_of_refused {s : State} {r : Refusal} (h : step s = .refused r) (k : Nat) :
    Sys2Proof.core.run (k + 1) s = .refused r := by
  have hstep : Sys2Proof.core.step s = .refused r := h
  simp only [Host.Core.run, hstep]

/-- Settles O40: the issue and the execute step meet the request's one refusal; a line longer than IN is its issue
alone, which is the first move after the line. -/
theorem refusedRequestsNeverAnswer : Obligations.RefusedRequestsNeverAnswer := by
  refine ⟨fun s e g req rest he h => ⟨_, rfl, fun ha hp => ?_, fun hat => step_refused hat h⟩, ?_⟩
  · rw [step_issue ha]
    exact hostIssue_refused he hp (Request.refusal?_eq_some h)
  · intro s l ls order rest g bytes ha he hp hb hl hls
    obtain ⟨bss, hbss⟩ := exists_bytes_of_readable hls
    have hline := step_lines_of_some (bss := bytes :: bss) ha (by rw [List.map_cons, List.map_cons, hb, hbss])
    rw [List.zip_cons_cons, List.flatMap_cons, HostLine.issueMoves_of_lt l hl] at hline
    have hr := Request.refusal?_eq_some (req := l.cmd.request bytes.length) (c := s.cfg)
      (.inr (by rwa [HostCommand.request_len]))
    rw [if_neg (HostCommand.request_cmd_ne _ _)] at hr
    have hissue : ∀ ms,
        step (s.setAgenda (.issue l.engine (l.cmd.request bytes.length) :: ms)) = .refused .requestTooLong :=
      fun ms => (step_issue (s := s.setAgenda _) rfl).trans (hostIssue_refused he hp hr)
    rw [run_succ_of_step hline]
    exact run_succ_of_refused (hissue _) 0

/-! ### The bytes of a line -/

/-- The last element of an engine's observation is its last delivery. -/
theorem getLast?_observation (s : State) (e : Nat) :
    (s.observation e).getLast? = (lastDelivery e s.delivered).map (fun d => (d.rsp, d.bytes)) := by
  rw [State.observation, List.getLast?_map, lastDelivery]

/-- `OUT` of an engine that is not BUSY: what its previous response covers, if that is a success (R66). -/
theorem previousOut_of_not_busy {s : State} {e : Nat} {g : Engine} (he : s.engines[e]? = some g)
    (hp : ∀ q, g.phase ≠ .busy q) : previousOut s e = (lastDelivery e s.delivered).bind fun d =>
      if d.rsp.ok then some (g.outMem.readN 0 d.rsp.covered) else none := by
  unfold previousOut
  rw [he]
  cases lastDelivery e s.delivered with
  | none => rfl
  | some d =>
    cases hg : g.phase with
    | busy q => exact absurd hg (hp q)
    | idle | done => simp [hg]

/-- `OUT` of a BUSY engine is not read (R131). -/
theorem previousOut_of_busy {s : State} {e : Nat} {g : Engine} {q : Request} (he : s.engines[e]? = some g)
    (hp : g.phase = .busy q) : previousOut s e = none := by
  unfold previousOut
  rw [he]
  cases lastDelivery e s.delivered with
  | none => rfl
  | some d => simp [hp]

/-- The moves of one line: its bytes go into IN where they fit, and its request is issued (R66; log 12). -/
theorem HostLine.issueMoves_eq (c : Config) (l : HostLine) (bytes : List Byte) : l.issueMoves c bytes =
    (if bytes.length ≤ c.maxInLen then [.write l.engine 0 bytes] else []) ++
      [.issue l.engine (l.cmd.request bytes.length)] := by
  by_cases h : bytes.length ≤ c.maxInLen
  · rw [HostLine.issueMoves_of_le l h, if_pos h, List.singleton_append]
  · rw [HostLine.issueMoves_of_lt l (by omega), if_neg h, List.nil_append]

/-- Settles O48: each line's moves by the cases of its command and length, and `OUT` by the engine's phase and last delivery. -/
theorem programLineIsAssembled : Obligations.ProgramLineIsAssembled := by
  refine ⟨fun s ls order rest ha => ⟨fun bss h => ?_, step_lines_of_none ha⟩,
    fun s e g he => ⟨fun r b hp hlast hr => ?_, fun h => ?_⟩, fun prev bytes n b => ⟨rfl, rfl, ?_⟩⟩
  · rw [step_lines_of_some ha h]
    refine congrArg (fun f => Host.Outcome.next (s.setAgenda ((ls.zip bss).flatMap f ++ order.map Move.execute ++
      ls.map (fun l => Move.take l.engine) ++ rest))) (funext fun p => ?_)
    obtain ⟨⟨e, cmd, -⟩, bs⟩ := p
    rw [HostLine.issueMoves_eq]
    cases cmd with
    | encode kind seq => cases kind <;> rfl
    | decode => rfl
  · rw [getLast?_observation] at hlast
    obtain ⟨d, hd, hdr⟩ := Option.map_eq_some_iff.mp hlast
    cases hdr
    rw [previousOut_of_not_busy he hp, hd, Option.bind_some, if_pos hr]
  · by_cases hp : ∃ q, g.phase = .busy q
    · obtain ⟨q, hq⟩ := hp
      exact previousOut_of_busy he hq
    · have hfail := h.resolve_left hp
      rw [previousOut_of_not_busy he fun q hq => hp ⟨q, hq⟩]
      rw [getLast?_observation] at hfail
      cases hd : lastDelivery e s.delivered with
      | none => rfl
      | some d =>
        have hr := hfail d.rsp d.bytes (by rw [hd]; rfl)
        rw [Option.bind_some, hr]
        rfl
  · cases prev <;> rfl

end Sys2Proof.Machine
end

section
/-! ## 30_encoding: the five steps of a program line, and the program ENCODE then DECODE OUT (R66, R94, R135) -/

namespace Sys2Proof.Machine

/-! ### Moves on one engine -/

/-- The state with one engine and the moves to come replaced. -/
def State.withTurn (s : State) (e : Nat) (g : Engine) (ms : List Move) : State := (s.setEngine e g).setAgenda ms

theorem State.withTurn_self {s : State} {e : Nat} {g : Engine} (he : s.engines[e]? = some g) (ms : List Move) :
    s.withTurn e g ms = s.setAgenda ms := by
  obtain ⟨hlt, rfl⟩ := List.getElem?_eq_some_iff.mp he
  simp only [State.withTurn, State.setEngine, List.set_getElem_self]

theorem State.engine_withTurn {s : State} {e : Nat} (he : e < s.engines.length) (g : Engine) (ms : List Move) :
    (s.withTurn e g ms).engines[e]? = some g := List.getElem?_set_self he

theorem State.setAgenda_withTurn (s : State) (e : Nat) (g : Engine) (ms ms' : List Move) :
    (s.withTurn e g ms).setAgenda ms' = s.withTurn e g ms' := rfl

theorem State.setEngine_withTurn (s : State) (e : Nat) (g g' : Engine) (ms : List Move) :
    (s.withTurn e g ms).setEngine e g' = s.withTurn e g' ms := by
  simp only [State.withTurn, State.setEngine, State.setAgenda, List.set_set]

section
variable {s : State} {e : Nat} (he : e < s.engines.length)
include he

theorem step_write_withTurn {inp out : Memory} {bs : List Byte} {ms : List Move} (hl : bs.length ≤ s.cfg.maxInLen) :
    step (s.withTurn e ⟨.idle, inp, out⟩ (.write e 0 bs :: ms))
      = .next (s.withTurn e ⟨.idle, inp.writeN 0 bs, out⟩ ms) := by
  have hcfg : (s.withTurn e ⟨.idle, inp, out⟩ ms).cfg = s.cfg := rfl
  rw [step_write rfl, State.setAgenda_withTurn,
    hostWrite_not_busy (State.engine_withTurn he _ _) (fun _ => Phase.noConfusion), State.setEngine_withTurn,
    hcfg, Nat.zero_add, if_pos hl]

theorem step_issue_withTurn {inp out : Memory} {req : Request} {ms : List Move} (hr : req.refusal? s.cfg = none) :
    step (s.withTurn e ⟨.idle, inp, out⟩ (.issue e req :: ms)) = .next (s.withTurn e ⟨.busy req, inp, out⟩ ms) := by
  rw [step_issue rfl, State.setAgenda_withTurn, hostIssue_idle (State.engine_withTurn he _ _) rfl hr,
    State.setEngine_withTurn]

theorem step_execute_withTurn {inp out : Memory} {req : Request} {ms : List Move} {a : Reply}
    (ha : Replies req.instr s.cfg req inp a) :
    step (s.withTurn e ⟨.busy req, inp, out⟩ (.execute e :: ms))
      = .next (s.withTurn e ⟨.done a.rsp, inp, out.writeN 0 a.bytes⟩ ms) := by
  have hat : (s.withTurn e ⟨.busy req, inp, out⟩ (.execute e :: ms)).AtTurn e ⟨.busy req, inp, out⟩ req ms :=
    ⟨rfl, State.engine_withTurn he _ _, rfl⟩
  rw [step_eq_exec hat, ha.exec_eq hat rfl rfl]
  exact congrArg _ (State.setEngine_withTurn s e _ _ ms)

theorem step_take_withTurn {inp out : Memory} {r : Response} {ms : List Move} :
    step (s.withTurn e ⟨.done r, inp, out⟩ (.take e :: ms))
      = .next ((s.withTurn e ⟨.idle, inp, out⟩ ms).deliver ⟨e, r, out.readN 0 r.covered⟩) := by
  rw [step_take rfl, State.setAgenda_withTurn, hostTake_done (State.engine_withTurn he _ _) rfl, State.setEngine_withTurn]

end

/-! ### One line -/

theorem Request.refusal?_eq_none_of {c : Config} {req : Request} (hcmd : req.cmd ≠ 0b110#3) (hl : req.len ≤ c.maxInLen) :
    req.refusal? c = none := by
  rw [Request.refusal?, if_neg hcmd, if_neg hl.not_gt]

/-- The state after a line on an IDLE engine: its bytes in IN, the reply's bytes in OUT and delivered. -/
def State.afterLine (s : State) (e : Nat) (g : Engine) (rest : List Move) (bs : List Byte) (a : Reply) : State :=
  (s.withTurn e ⟨.idle, g.inMem.writeN 0 bs, g.outMem.writeN 0 a.bytes⟩ rest).deliver ⟨e, a.rsp, a.bytes⟩

/-- A line on an IDLE engine takes five steps: it is assembled, its bytes are written, its request is issued and executed, and
the response is taken (R66; log 4, log 12). -/
theorem run_line {s : State} {l : HostLine} {g : Engine} {rest : List Move} {bs : List Byte} {a : Reply}
    (ha : s.agenda = .lines [l] [l.engine] :: rest) (he : s.engines[l.engine]? = some g) (hp : g.phase = .idle)
    (hb : l.bytes.eval (previousOut s l.engine) = some bs) (hl : bs.length ≤ s.cfg.maxInLen) (hout : g.outMem.wf)
    (hrep : Replies (l.cmd.request bs.length).instr s.cfg (l.cmd.request bs.length) (g.inMem.writeN 0 bs) a) (k : Nat) :
    Sys2Proof.core.run (k + 5) s = Sys2Proof.core.run k (s.afterLine l.engine g rest bs a) := by
  have hr : (l.cmd.request bs.length).refusal? s.cfg = none :=
    Request.refusal?_eq_none_of (HostCommand.request_cmd_ne _ _) (by rwa [HostCommand.request_len])
  have hline : step s = .next (s.withTurn l.engine g (.write l.engine 0 bs ::
      .issue l.engine (l.cmd.request bs.length) :: .execute l.engine :: .take l.engine :: rest)) := by
    rw [State.withTurn_self he, step_lines_of_some (bss := [bs]) ha (by rw [List.map_singleton, hb]; rfl),
      List.zip_cons_cons, List.flatMap_cons, HostLine.issueMoves_of_le l hl]
    rfl
  obtain ⟨hlt, -⟩ := List.getElem?_eq_some_iff.mp he
  obtain ⟨p, inp, out⟩ := g
  cases hp
  rw [run_succ_of_step hline, run_succ_of_step (step_write_withTurn hlt hl), run_succ_of_step (step_issue_withTurn hlt hr),
    run_succ_of_step (step_execute_withTurn hlt hrep), run_succ_of_step (step_take_withTurn hlt), hrep.covered,
    Memory.readN_writeN_same _ _ _ hout]
  rfl

theorem State.observation_afterLine (s : State) (e : Nat) (g : Engine) (rest : List Move) (bs : List Byte) (a : Reply) :
    (s.afterLine e g rest bs a).observation e = s.observation e ++ [(a.rsp, a.bytes)] :=
  State.observation_deliver_self _ ⟨e, a.rsp, a.bytes⟩

theorem State.engine_afterLine {s : State} {e : Nat} (he : e < s.engines.length) (g : Engine) (rest : List Move)
    (bs : List Byte) (a : Reply) : (s.afterLine e g rest bs a).engines[e]?
      = some ⟨.idle, g.inMem.writeN 0 bs, g.outMem.writeN 0 a.bytes⟩ := State.engine_withTurn he _ rest

/-- After a line that succeeded, `OUT` is the bytes of its reply (R66). -/
theorem previousOut_afterLine {s : State} {e : Nat} {g : Engine} (he : e < s.engines.length) (hout : g.outMem.wf)
    (rest : List Move) (bs : List Byte) {a : Reply} (hcov : a.rsp.covered = a.bytes.length) (hok : a.rsp.ok = true) :
    previousOut (s.afterLine e g rest bs a) e = some a.bytes := by
  have hlast : lastDelivery e (s.afterLine e g rest bs a).delivered = some ⟨e, a.rsp, a.bytes⟩ := by
    simp [State.afterLine, lastDelivery]
  rw [previousOut_of_not_busy (State.engine_afterLine he g rest bs a) (fun _ => Phase.noConfusion), hlast,
    Option.bind_some, if_pos hok, hcov, Memory.readN_writeN_same _ _ _ hout]

/-! ### The replies of the two lines -/

/-- The command word of an instruction decodes to it (R63). -/
theorem decodeCommand_of_encode {i : Instr} (hw : i.wf) {cmd : BitVec 3} {seq : Seq} {len : Nat}
    (h : encode i = .command cmd seq len) : decodeCommand cmd seq len = i := by
  have hdec := decodingAnEncodedInstructionGivesItBack i hw
  rw [h] at hdec
  exact Except.ok.inj hdec

theorem HostCommand.instr_encode (kind : Kind) (seq : Seq) (n : Nat) :
    ((HostCommand.encode kind seq).request n).instr = encodeOf kind seq n := by
  cases kind <;> exact decodeCommand_of_encode trivial rfl

theorem HostCommand.instr_decode (n : Nat) : (HostCommand.decode.request n).instr = .decode 0b00#2 n :=
  decodeCommand_of_encode trivial rfl

/-- An ENCODE line replies with the pure function of its bytes (R68). -/
theorem replies_encode_line {c : Config} {bs : List Byte} (hl : bs.length ≤ c.maxInLen) (kind : Kind) (seq : Seq)
    {inp : Memory} (hw : inp.wf) :
    Replies ((HostCommand.encode kind seq).request bs.length).instr c ((HostCommand.encode kind seq).request bs.length)
      (inp.writeN 0 bs) (encodeReply (encodeSegment ⟨kind, seq, bs⟩)) := by
  refine ⟨covered_encodeReply _, fun hat hc hin => ?_⟩
  rw [HostCommand.instr_encode, exec_encodeOf, atTurn_eq hat, runEncode_eq, hc, if_neg hl.not_gt, hin,
    Memory.readN_writeN_same _ _ _ hw]

/-- A DECODE line replies with the pure function of its bytes (R80). -/
theorem replies_decode_line {c : Config} {bs : List Byte} (hl : bs.length ≤ c.maxInLen) {inp : Memory} (hw : inp.wf) :
    Replies (HostCommand.decode.request bs.length).instr c (HostCommand.decode.request bs.length) (inp.writeN 0 bs)
      (decodeReply (decodeBuffer bs)) := by
  refine ⟨covered_decodeReply _, fun hat hc hin => ?_⟩
  rw [HostCommand.instr_decode, exec, execDecode, atTurn_eq hat, runDecode_eq, hc, if_neg hl.not_gt, hin,
    Memory.readN_writeN_same _ _ _ hw]

/-- Settles O60: the first line leaves the frame as `OUT`, which the second line's DECODE takes back to the segment. -/
theorem encodeThenDecodeProgramReturnsTheSegment : Obligations.EncodeThenDecodeProgramReturnsTheSegment := by
  intro s e g kind seq bytes rest hinv he hp hl hmax ha
  obtain ⟨hin, -, hout, -, -⟩ := hinv.engine_wf he
  obtain ⟨hlt, -⟩ := List.getElem?_eq_some_iff.mp he
  obtain ⟨frame, henc⟩ : ∃ frame, encodeSegment ⟨kind, seq, bytes⟩ = .ok frame :=
    ⟨_, encodeSegment_eq_ok.mpr ⟨Nat.add_le_add_left hmax 13, rfl⟩⟩
  have hframe : frame.length ≤ s.cfg.maxInLen := (length_of_encodeSegment henc).trans_le hl
  have hrep₁ := replies_encode_line (c := s.cfg) (bs := bytes) (by omega) kind seq hin
  rw [henc] at hrep₁
  have hrep₂ := replies_decode_line hframe (Memory.wf_writeN hin 0 bytes)
  rw [decodeBuffer_of_encodeSegment henc] at hrep₂
  have hrun₁ := run_line ha he hp rfl (by omega) hout hrep₁ 5
  have hrun₂ := run_line (s := s.afterLine e g (.lines [⟨e, .decode, .out⟩] [e] :: rest) bytes (encodeReply (.ok frame)))
    (l := ⟨e, .decode, .out⟩) rfl (State.engine_afterLine hlt _ _ _ _) rfl
    (previousOut_afterLine hlt hout _ bytes hrep₁.covered rfl) hframe (Memory.wf_writeN hout 0 frame) hrep₂ 0
  refine ⟨_, frame, hrun₁.trans hrun₂, rfl, henc, ?_⟩
  rw [State.observation_afterLine, State.observation_afterLine, List.append_assoc]
  rfl

end Sys2Proof.Machine
end

section
/-! ## 40_encode: the two outcomes of an admitted ENCODE (R68 to R76) -/

namespace Sys2Proof.Machine

/-! ### The commands and their kinds -/

theorem exists_kind_of_mem_encodes {i : Instr} {seq : Seq} {plen : Nat}
    (h : i ∈ [Instr.encodeData seq plen, Instr.encodeAck seq plen, Instr.encodeSyn seq plen]) :
    ∃ kind, i = encodeOf kind seq plen := by
  simp only [List.mem_cons, List.not_mem_nil, or_false] at h
  rcases h with h | h | h
  · exact ⟨.data, h⟩
  · exact ⟨.ack, h⟩
  · exact ⟨.syn, h⟩

/-- Each ENCODE command with its tag byte is a kind's command with that kind's tag (R57, R63). -/
theorem exists_kind_of_mem_tagged_encodes {i : Instr} {tag : Byte} {seq : Seq} {plen : Nat}
    (h : (i, tag) ∈ [(Instr.encodeData seq plen, 0x00#8), (Instr.encodeAck seq plen, 0x01#8),
      (Instr.encodeSyn seq plen, 0x02#8)]) : ∃ kind, i = encodeOf kind seq plen ∧ tag = Kind.tag kind := by
  simp only [List.mem_cons, List.not_mem_nil, or_false, Prod.mk.injEq] at h
  rcases h with h | h | h
  · exact ⟨.data, h⟩
  · exact ⟨.ack, h⟩
  · exact ⟨.syn, h⟩

/-! ### The boundary -/

/-- The frame is too long exactly when the payload is (R1, R70). -/
theorem maxTotalLen_lt_iff {plen : Nat} : maxTotalLen < 13 + plen ↔ maxPayloadLen < plen := by
  unfold maxTotalLen maxPayloadLen
  omega

section
variable {s : State} {e : Nat} {g : Engine} {req : Request} {rest : List Move} {plen : Nat}

/-! ### One equation per outcome -/

/-- Past the largest frame: the error with the exact length, and OUT as it was (R70). -/
theorem exec_encodeOf_overflow (hat : s.AtTurn e g req rest) (hl : plen ≤ s.cfg.maxInLen)
    (ht : maxTotalLen < 13 + plen) (kind : Kind) (seq : Seq) :
    exec (encodeOf kind seq plen) s = .next (s.answered e g rest g.outMem (.errTotalLenOverflow (13 + plen))) := by
  rw [exec_encodeOf, atTurn_eq hat]
  rcases runEncode_cases kind seq plen s ⟨e, g, req, rest⟩ with ⟨hl', -⟩ | ⟨-, -, hx⟩ | ⟨-, ht', -⟩
  · exact absurd hl hl'.not_ge
  · exact hx
  · exact absurd ht ht'.not_gt

/-- Up to the largest frame: OK_ENCODE, and the frame written over OUT (R68, R71). -/
theorem exec_encodeOf_ok (hat : s.AtTurn e g req rest) (hl : plen ≤ s.cfg.maxInLen)
    (ht : 13 + plen ≤ maxTotalLen) (kind : Kind) (seq : Seq) :
    exec (encodeOf kind seq plen) s
      = .next (s.answered e g rest (writeFrame g.outMem kind seq (g.inMem.readN 0 plen)) (.okEncode (13 + plen))) := by
  rw [exec_encodeOf, atTurn_eq hat]
  rcases runEncode_cases kind seq plen s ⟨e, g, req, rest⟩ with ⟨hl', -⟩ | ⟨-, ht', -⟩ | ⟨-, -, hx⟩
  · exact absurd hl hl'.not_ge
  · exact absurd ht ht'.not_ge
  · exact hx

/-- ENCODE answers TotalLenOverflow exactly past the largest payload (R70). -/
theorem exec_encodeOf_overflow_iff (hat : s.AtTurn e g req rest) (hl : plen ≤ s.cfg.maxInLen) (kind : Kind) (seq : Seq) :
    (∃ out n, exec (encodeOf kind seq plen) s = .next (s.answered e g rest out (.errTotalLenOverflow n))) ↔
      maxPayloadLen < plen := by
  constructor
  · rintro ⟨out, n, hx⟩
    by_contra hp
    rw [exec_encodeOf_ok hat hl (Nat.not_lt.mp (mt maxTotalLen_lt_iff.mp hp))] at hx
    obtain ⟨-, hr⟩ := State.answered_inj hat (Host.Outcome.next.inj hx)
    cases hr
  · exact fun hp => ⟨_, _, exec_encodeOf_overflow hat hl (maxTotalLen_lt_iff.mpr hp) kind seq⟩

end

/-! ### The frame in OUT -/

/-- The frame ENCODE leaves in OUT from offset 0 is the header and the payload bytes of IN (R71). -/
theorem readN_writeFrame_readN {out : Memory} (hw : out.wf) (inp : Memory) (kind : Kind) (seq : Seq) (plen : Nat) :
    (writeFrame out kind seq (inp.readN 0 plen)).readN 0 (13 + plen)
      = headerBytes (13 + plen) kind.tag seq ++ inp.readN 0 plen := by
  simpa only [Memory.length_readN] using readN_writeFrame out kind seq (inp.readN 0 plen) hw

/-- The first four bytes of OUT are the length field of the frame (R71). -/
theorem readN_four_writeFrame {out : Memory} (hw : out.wf) (inp : Memory) (kind : Kind) (seq : Seq) (plen : Nat) :
    (writeFrame out kind seq (inp.readN 0 plen)).readN 0 4 = bytesBE 4 (13 + plen) := by
  obtain ⟨htake, -, -, -⟩ := fields_headerBytes_append (13 + plen) kind.tag seq (inp.readN 0 plen)
  have hfour := (writeFrame out kind seq (inp.readN 0 plen)).take_drop_readN (a := 0) (k := 0) (n := 4) (len := 13 + plen)
    (by omega)
  rw [readN_writeFrame_readN hw, List.drop_zero, htake] at hfour
  exact hfour.symm

/-- Settles O11: the command is that of a kind with this tag, whose frame is one block write of header and payload. -/
theorem encodeWritesTheFrame : Obligations.EncodeWritesTheFrame := by
  intro s e g req rest seq plen i tag hat hw hl ht hi
  obtain ⟨kind, rfl, rfl⟩ := exists_kind_of_mem_tagged_encodes hi
  refine ⟨_, exec_encodeOf_ok hat hl ht kind seq, readN_writeFrame_readN hw _ _ _ _, ?_, fun a ha => ?_⟩
  · rw [readN_four_writeFrame hw, beNat_bytesBE, Nat.mod_eq_of_lt (show _ < 256 ^ 4 from Nat.lt_succ_of_le ht)]
  · exact read_writeFrame_outside _ _ _ _ _ (by rwa [Memory.length_readN])

/-- Settles O12, from the two outcomes of an admitted ENCODE, which are told apart by their responses. -/
theorem encodeOverflowsExactlyPastTheLargestPayload : Obligations.EncodeOverflowsExactlyPastTheLargestPayload := by
  intro s e g req rest seq plen i hat hl hi
  obtain ⟨kind, rfl⟩ := exists_kind_of_mem_encodes hi
  exact ⟨fun ht => exec_encodeOf_overflow hat hl ht kind seq, exec_encodeOf_overflow_iff hat hl kind seq⟩

/-- Settles O13: the outcome at each length, and the bytes of the two length fields. -/
theorem encodeBoundaryLengths : Obligations.EncodeBoundaryLengths := by
  intro s e g req rest seq kind hat hw
  have hzero : bytesBE 4 13 = [0x00#8, 0x00#8, 0x00#8, 0x0D#8] := by decide
  have hmax : bytesBE 4 4294967295 = [0xFF#8, 0xFF#8, 0xFF#8, 0xFF#8] := by decide
  refine ⟨⟨_, exec_encodeOf_ok hat (Nat.zero_le _) (by decide) kind seq, ?_⟩,
    fun hl => ⟨_, exec_encodeOf_ok hat hl (by decide) kind seq, ?_⟩,
    fun hl => exec_encodeOf_overflow hat hl (by decide) kind seq,
    fun hl => exec_encodeOf_overflow hat hl (by decide) kind seq,
    fun plen hl => exec_encodeOf_overflow_iff hat hl kind seq⟩
  · rw [← hzero]
    exact (readN_writeFrame_readN hw g.inMem kind seq 0).trans (List.append_nil _)
  · rw [← hmax]
    exact readN_four_writeFrame hw g.inMem kind seq 4294967282

/-- Settles O14: ENCODE gives the reply of its pure function, written over OUT from offset 0. -/
theorem encodeAgreesWithThePureFunction : Obligations.EncodeAgreesWithThePureFunction := by
  intro s e g req rest seq plen kind hat hw hl
  have hx : exec (encodeOf kind seq plen) s = .next (s.replied ⟨e, g, req, rest⟩
      (encodeReply (encodeSegment ⟨kind, seq, g.inMem.readN 0 plen⟩))) := by
    rw [exec_encodeOf, atTurn_eq hat, runEncode_eq, if_neg hl.not_gt]
  cases hseg : encodeSegment ⟨kind, seq, g.inMem.readN 0 plen⟩ with
  | error err =>
    rw [hseg] at hx
    exact hx
  | ok frame =>
    rw [hseg] at hx
    refine ⟨_, hx, Memory.readN_writeN_same frame g.outMem 0 hw, fun a ha => ?_⟩
    exact Memory.read_writeN_outside frame _ _ _ (.inr (by rwa [Nat.zero_add]))

end Sys2Proof.Machine
end

section
/-! ## 41_decode: the buffers that DECODE accepts, and the laws of the codec (R80, R94 to R100) -/

namespace Sys2Proof.Machine

/-! ### Fields of a buffer as numbers -/

theorem bytesBE_beNat_of_length {b : List Byte} {n : Nat} (h : b.length = n) : bytesBE n (beNat b) = b := by
  rw [← h, bytesBE_beNat]

/-- total_len is a 32-bit value (R59). -/
theorem declaredLen_lt (b : List Byte) : declaredLen b < 2 ^ 32 :=
  (beNat_lt (b.take 4)).trans_le (Nat.pow_le_pow_right (by decide) (List.length_take_le 4 b))

/-- The fields of a buffer's header, put back into a header, are its first 13 bytes (R53, R59). -/
theorem headerBytes_of_fields {b : List Byte} (h : 13 ≤ b.length) :
    headerBytes (declaredLen b) (b.getD 4 0) (BitVec.ofNat 64 (beNat ((b.drop 5).take 8))) = b.take 13 := by
  have htag : [b.getD 4 0] = (b.drop 4).take 1 := by
    rw [List.getD_eq_getElem _ _ (by omega), List.drop_eq_getElem_cons (by omega), List.take_succ_cons, List.take_zero]
  have hlen : (b.take 4).length = 4 := List.length_take_of_le (by omega)
  have hseq : ((b.drop 5).take 8).length = 8 := List.length_take_of_le (by rw [List.length_drop]; omega)
  have hlt := beNat_lt ((b.drop 5).take 8)
  rw [hseq] at hlt
  rw [headerBytes, declaredLen, htag, BitVec.toNat_ofNat, Nat.mod_eq_of_lt (show _ < 2 ^ 64 from hlt),
    bytesBE_beNat_of_length hlen, bytesBE_beNat_of_length hseq, ← List.take_add, ← List.take_add]

/-! ### What DECODE makes of a buffer, said once -/

/-- The four things the pure DECODE can do (R80). -/
theorem decodeBuffer_cases (b : List Byte) :
    (b.length < 4 ∧ decodeBuffer b = .error .tooShort) ∨
    (4 ≤ b.length ∧ (declaredLen b < 13 ∨ b.length < declaredLen b) ∧
      decodeBuffer b = .error (.invalidTotalLen (BitVec.ofNat 32 (declaredLen b)) b.length)) ∨
    (13 ≤ declaredLen b ∧ declaredLen b ≤ b.length ∧ 3 ≤ (b.getD 4 0).toNat ∧
      decodeBuffer b = .error (.unknownType (b.getD 4 0))) ∨
    (∃ kind : Kind, 13 ≤ declaredLen b ∧ declaredLen b ≤ b.length ∧ b.getD 4 0 = kind.tag ∧
      decodeBuffer b = .ok ⟨kind, BitVec.ofNat 64 (beNat ((b.drop 5).take 8)), (b.drop 13).take (declaredLen b - 13)⟩) := by
  unfold decodeBuffer
  split
  · exact .inl ⟨by assumption, rfl⟩
  · split
    · exact .inr (.inl ⟨by omega, by assumption, rfl⟩)
    · split
      · rename_i kind hk
        exact .inr (.inr (.inr ⟨kind, by omega, by omega, kindOfTag_eq_some.mp hk, rfl⟩))
      · rename_i hk
        exact .inr (.inr (.inl ⟨by omega, by omega, kindOfTag_eq_none.mp hk, rfl⟩))

/-- Settles O29: of the four outcomes only the first is TooShort, and it is the one of fewer than 4 bytes. -/
theorem tooShortExactlyBelowFourBytes : Obligations.TooShortExactlyBelowFourBytes := by
  intro b
  rcases decodeBuffer_cases b with ⟨hs, hx⟩ | ⟨hs, -, hx⟩ | ⟨h13, hle, -, hx⟩ | ⟨kind, h13, hle, -, hx⟩ <;> rw [hx]
  · exact iff_of_true rfl hs
  · exact iff_of_false nofun (by omega)
  · exact iff_of_false nofun (by omega)
  · exact iff_of_false nofun (by omega)

/-- Settles O30: the other outcomes want a shorter buffer or a length within bounds. -/
theorem inconsistentLengthIsRejected : Obligations.InconsistentLengthIsRejected := by
  intro b h4 ht
  change b.length < declaredLen b ∨ declaredLen b < 13 at ht
  rcases decodeBuffer_cases b with ⟨hs, -⟩ | ⟨-, -, hx⟩ | ⟨h13, hle, -⟩ | ⟨kind, h13, hle, -⟩
  · exact absurd h4 hs.not_ge
  · exact ⟨_, by rw [BitVec.toNat_ofNat, Nat.mod_eq_of_lt (declaredLen_lt b), declaredLen], hx⟩
  · omega
  · omega

/-- A buffer of consistent length whose type byte is reserved is rejected with that byte (R98). -/
theorem decodeBuffer_unknownType {b : List Byte} (h13 : 13 ≤ declaredLen b) (hle : declaredLen b ≤ b.length)
    (htag : 3 ≤ (b.getD 4 0).toNat) : decodeBuffer b = .error (.unknownType (b.getD 4 0)) := by
  rcases decodeBuffer_cases b with ⟨hs, -⟩ | ⟨-, ht, -⟩ | ⟨-, -, -, hx⟩ | ⟨kind, -, -, hk, -⟩
  · omega
  · omega
  · exact hx
  · have hnone := kindOfTag_eq_none.mpr htag
    rw [kindOfTag_eq_some.mpr hk] at hnone
    cases hnone

/-- Settles O31: the second part is the first on a buffer whose length field is 13. -/
theorem unknownTagIsRejected : Obligations.UnknownTagIsRejected := by
  refine ⟨fun b _ h13 hle htag => decodeBuffer_unknownType h13 hle htag, fun q hq => ?_⟩
  have hdecl : declaredLen ([0x00#8, 0x00#8, 0x00#8, 0x0D#8, 0x03#8] ++ q) = 13 :=
    show beNat [0x00#8, 0x00#8, 0x00#8, 0x0D#8] = 13 by decide
  have hlen : ([0x00#8, 0x00#8, 0x00#8, 0x0D#8, 0x03#8] ++ q).length = 13 := by simp [hq]
  exact decodeBuffer_unknownType hdecl.ge (hdecl.trans hlen.symm).le (show 3 ≤ (0x03#8).toNat by decide)

/-! ### Frames and accepted buffers -/

/-- What DECODE accepts begins with the frame of the segment it returns: the re-encode law (R99). -/
theorem encodeSegment_of_decodeBuffer {b : List Byte} {seg : Segment} (h : decodeBuffer b = .ok seg) :
    encodeSegment seg = .ok (b.take (declaredLen b)) := by
  rcases decodeBuffer_cases b with ⟨-, hx⟩ | ⟨-, -, hx⟩ | ⟨-, -, -, hx⟩ | ⟨kind, h13, hle, htag, hx⟩ <;> rw [hx] at h
  · cases h
  · cases h
  · cases h
  · cases h
    have hpay : 13 + ((b.drop 13).take (declaredLen b - 13)).length = declaredLen b := by
      rw [List.length_take_of_le (by rw [List.length_drop]; omega), Nat.add_sub_cancel' h13]
    refine encodeSegment_eq_ok.mpr ⟨hpay.trans_le (Nat.le_of_lt_succ (declaredLen_lt b)), ?_⟩
    rw [hpay, ← htag, headerBytes_of_fields (h13.trans hle), ← List.take_add, Nat.add_sub_cancel' h13]

/-- The length field of a buffer that begins with a frame is the frame's length (R95). -/
theorem declaredLen_frame_append {seg : Segment} {frame : List Byte} (h : encodeSegment seg = .ok frame)
    (tail : List Byte) : declaredLen (frame ++ tail) = frame.length := by
  rw [← declaredLen_of_encodeSegment h, declaredLen, declaredLen, List.take_append_of_le_length]
  rw [length_of_encodeSegment h]
  omega

/-- A frame is decoded to its segment whatever bytes come after it (R87, R94). -/
theorem decodeBuffer_frame_append {seg : Segment} {frame : List Byte} (h : encodeSegment seg = .ok frame)
    (tail : List Byte) : decodeBuffer (frame ++ tail) = .ok seg := by
  have hlen := length_of_encodeSegment h
  have hdecl := (declaredLen_frame_append h tail).trans hlen
  obtain ⟨-, rfl⟩ := encodeSegment_eq_ok.mp h
  rw [List.append_assoc] at hdecl ⊢
  obtain ⟨-, htag, hseq, hpay⟩ :=
    fields_headerBytes_append (13 + seg.payload.length) seg.kind.tag seg.sequence (seg.payload ++ tail)
  rw [decodeBuffer, ← List.append_assoc, List.length_append, hlen, List.append_assoc, hdecl, if_neg (by omega),
    if_neg (by omega), htag, kindOfTag_eq_some.mpr rfl, hseq, hpay, beNat_bytesBE,
    Nat.mod_eq_of_lt (show _ < 256 ^ 8 from seg.sequence.isLt), Nat.add_sub_cancel_left, List.take_left, BitVec.ofNat_toNat,
    BitVec.setWidth_eq]

/-- Settles O27: up to the largest payload ENCODE gives a frame, and DECODE takes it back. -/
theorem decodeOfEncodeIsTheSegment : Obligations.DecodeOfEncodeIsTheSegment := by
  intro seg hl
  obtain ⟨frame, henc⟩ : ∃ frame, encodeSegment seg = .ok frame :=
    ⟨_, encodeSegment_eq_ok.mpr ⟨Nat.add_le_add_left hl 13, rfl⟩⟩
  exact ⟨frame, henc, decodeBuffer_of_encodeSegment henc⟩

/-- Settles O32, since the frame of the segment is the first total_len bytes. -/
theorem encodeOfDecodeIsTheFramePart : Obligations.EncodeOfDecodeIsTheFramePart :=
  fun _ _ h => encodeSegment_of_decodeBuffer h

/-- Settles O28, from the header that a frame begins with. -/
theorem encodedLengthFieldIsTheFrameLength : Obligations.EncodedLengthFieldIsTheFrameLength :=
  fun _ _ h => declaredLen_of_encodeSegment h

/-- Settles O33: DECODE takes the one frame back to both segments. -/
theorem encodeIsInjective : Obligations.EncodeIsInjective := by
  intro x y frame hx hy
  exact Except.ok.inj ((decodeBuffer_of_encodeSegment hx).symm.trans (decodeBuffer_of_encodeSegment hy))

end Sys2Proof.Machine
end

section
/-! ## 41_decode: the outcomes of an admitted DECODE (R80 to R93) -/

namespace Sys2Proof.Machine

/-! ### At the turn of an engine -/

section
variable {s : State} {e : Nat} {g : Engine} {req : Request} {rest : List Move} {blen : Nat}

/-- DECODE runs its pseudocode on IN, whatever the KIND bits are (R61, R80). -/
theorem exec_decode (hat : s.AtTurn e g req rest) (k : BitVec 2) (blen : Nat) :
    exec (.decode k blen) s = runDecode g.inMem blen s ⟨e, g, req, rest⟩ := by
  rw [exec, execDecode, atTurn_eq hat]

/-- An admitted DECODE gives the reply of its pure function on the buffer in IN (R80). -/
theorem exec_decode_replied (hat : s.AtTurn e g req rest) (hl : blen ≤ s.cfg.maxInLen) (k : BitVec 2) :
    exec (.decode k blen) s
      = .next (s.replied ⟨e, g, req, rest⟩ (decodeReply (decodeBuffer (g.inMem.readN 0 blen)))) := by
  rw [exec_decode hat, runDecode_eq, if_neg hl.not_gt]

/-- A total_len out of bounds is rejected with both values exact (R83). -/
theorem exec_decode_invalidTotalLen (hat : s.AtTurn e g req rest) (hl : blen ≤ s.cfg.maxInLen) (h4 : 4 ≤ blen)
    (ht : beNat (g.inMem.readN 0 4) < 13 ∨ blen < beNat (g.inMem.readN 0 4)) (k : BitVec 2) :
    exec (.decode k blen) s
      = .next (s.answered e g rest g.outMem (.errInvalidTotalLen (totalLenAt g.inMem) blen)) := by
  rw [exec_decode hat]
  exact runDecode_invalidTotalLen hl h4 (by rwa [toNat_totalLenAt])

/-- Behind a valid length the type byte gives the kind; the sequence is read, and the payload written over OUT (R84 to R86). -/
theorem exec_decode_accepted {kind : Kind} (hat : s.AtTurn e g req rest) (hl : blen ≤ s.cfg.maxInLen)
    (h13 : 13 ≤ beNat (g.inMem.readN 0 4)) (hle : beNat (g.inMem.readN 0 4) ≤ blen) (htag : g.inMem.read 4 = kind.tag)
    (k : BitVec 2) :
    exec (.decode k blen) s = .next (s.answered e g rest
      (g.outMem.writeN 0 (g.inMem.readN 13 (beNat (g.inMem.readN 0 4) - 13)))
      (.okDecode kind (seqAt g.inMem) (beNat (g.inMem.readN 0 4) - 13))) := by
  rw [exec_decode hat, runDecode, toNat_totalLenAt, if_neg hl.not_gt, if_neg (by omega), if_neg (by omega),
    kindOfTag_eq_some.mpr htag]
  rfl

/-- A buffer that begins with a frame is decoded to the frame's segment: the payload is written over OUT (R86, R89). -/
theorem exec_decode_frame {seg : Segment} {frame tail : List Byte} (hat : s.AtTurn e g req rest)
    (hl : blen ≤ s.cfg.maxInLen) (henc : encodeSegment seg = .ok frame) (hb : g.inMem.readN 0 blen = frame ++ tail)
    (k : BitVec 2) :
    exec (.decode k blen) s = .next (s.replied ⟨e, g, req, rest⟩ (decodeReply (.ok seg))) := by
  rw [exec_decode_replied hat hl, hb, decodeBuffer_frame_append henc]

/-- A DECODE that answers OK_DECODE was admitted, and its buffer begins with the frame of the segment in the answer. -/
theorem frame_of_exec_decode {k : BitVec 2} {kind : Kind} {q : Seq} {n : Nat} {out : Memory}
    (hat : s.AtTurn e g req rest)
    (h : exec (.decode k blen) s = .next (s.answered e g rest out (.okDecode kind q n))) :
    blen ≤ s.cfg.maxInLen ∧ ∃ payload frame tail, encodeSegment ⟨kind, q, payload⟩ = .ok frame ∧
      g.inMem.readN 0 blen = frame ++ tail ∧ n = payload.length ∧ out = g.outMem.writeN 0 payload := by
  have hl : blen ≤ s.cfg.maxInLen := by
    by_contra hl
    rw [exec_decode hat, runDecode_eq, if_pos (Nat.not_le.mp hl)] at h
    cases h
  refine ⟨hl, ?_⟩
  rw [exec_decode_replied hat hl] at h
  obtain ⟨hout, hrsp⟩ := State.answered_inj hat (Host.Outcome.next.inj h)
  cases hdec : decodeBuffer (g.inMem.readN 0 blen) with
  | error err =>
    rw [hdec] at hrsp
    have hok := err.ok_response
    rw [show err.response = _ from hrsp] at hok
    cases hok
  | ok seg =>
    rw [hdec] at hout hrsp
    cases hrsp
    exact ⟨seg.payload, _, _, encodeSegment_of_decodeBuffer hdec, (List.take_append_drop _ _).symm, rfl, hout.symm⟩

end

/-! ### Step by step (R81 to R86) -/

/-- Settles O15, by the first step of R80. -/
theorem decodeRejectsShortBuffers : Obligations.DecodeRejectsShortBuffers := by
  intro s e g req rest k blen hat hl hs
  rw [exec_decode hat]
  exact runDecode_tooShort hl hs

/-- Settles O16: DECLARED is the total_len that DECODE reads, which keeps all 32 bits. -/
theorem decodeRejectsInvalidTotalLen : Obligations.DecodeRejectsInvalidTotalLen :=
  fun _ _ _ _ _ k _ hat hl h4 ht => ⟨_, toNat_totalLenAt _, exec_decode_invalidTotalLen hat hl h4 ht k⟩

/-- Settles O21: no total_len is both 13 or more and at most 12. -/
theorem decodeOfFourToTwelveBytesIsInvalid : Obligations.DecodeOfFourToTwelveBytesIsInvalid :=
  fun _ _ _ _ _ k _ hat hl h4 h12 => ⟨_, toNat_totalLenAt _, exec_decode_invalidTotalLen hat hl h4 (by omega) k⟩

/-- Settles O17: the byte is the tag of a kind, or it is reserved. -/
theorem decodeMapsTheTypeByte : Obligations.DecodeMapsTheTypeByte := by
  intro s e g req rest k blen hat hl h13 hle
  refine ⟨fun htag => ⟨_, _, _, exec_decode_accepted (kind := .data) hat hl h13 hle htag k⟩,
    fun htag => ⟨_, _, _, exec_decode_accepted (kind := .ack) hat hl h13 hle htag k⟩,
    fun htag => ⟨_, _, _, exec_decode_accepted (kind := .syn) hat hl h13 hle htag k⟩, fun htag => ?_⟩
  rw [exec_decode hat]
  exact runDecode_unknownType hl (by rwa [toNat_totalLenAt]) (by rwa [toNat_totalLenAt]) htag

/-- Settles O18: OUT is as before but for one block write of the payload bytes of IN. -/
theorem decodeReturnsTheSegment : Obligations.DecodeReturnsTheSegment := by
  intro s e g req rest k blen kind hat hw hl h13 hle htag
  refine ⟨_, _, toNat_seqAt _, exec_decode_accepted hat hl h13 hle htag k, ?_, fun a ha => ?_⟩
  · simpa only [Memory.length_readN] using
      Memory.readN_writeN_same (g.inMem.readN 13 (beNat (g.inMem.readN 0 4) - 13)) g.outMem 0 hw
  · exact Memory.read_writeN_outside _ _ _ _ (.inr (by rwa [Memory.length_readN, Nat.zero_add]))

/-! ### The pure function, and what it does not read (R80, R87) -/

/-- Settles O19: DECODE gives the reply of its pure function, written over OUT from offset 0. -/
theorem decodeAgreesWithThePureFunction : Obligations.DecodeAgreesWithThePureFunction := by
  intro s e g req rest k blen hat hw hl
  have hx := exec_decode_replied hat hl k
  cases hdec : decodeBuffer (g.inMem.readN 0 blen) with
  | error err =>
    rw [hdec] at hx
    exact hx
  | ok seg =>
    rw [hdec] at hx
    refine ⟨_, hx, Memory.readN_writeN_same seg.payload g.outMem 0 hw, fun a ha => ?_⟩
    exact Memory.read_writeN_outside seg.payload _ _ _ (.inr (by rwa [Nat.zero_add]))

/-- It is still the engine's turn when its spaces have other contents. -/
theorem State.AtTurn.setEngine {s : State} {e : Nat} {g g' : Engine} {req : Request} {rest : List Move}
    (h : s.AtTurn e g req rest) (hp : g'.phase = .busy req) : (s.setEngine e g').AtTurn e g' req rest := by
  obtain ⟨ha, he, -⟩ := h
  obtain ⟨hlt, -⟩ := List.getElem?_eq_some_iff.mp he
  exact ⟨ha, List.getElem?_set_self hlt, hp⟩

/-- Settles O20: the accepted buffer begins with a frame of 13 + n bytes, and so do the other two. -/
theorem decodeIgnoresTrailingBytes : Obligations.DecodeIgnoresTrailingBytes := by
  intro s e g req rest k blen kind q n out hat h
  obtain ⟨-, -, hp⟩ := id hat
  obtain ⟨hl, payload, frame, tail, henc, hb, rfl, rfl⟩ := frame_of_exec_decode hat h
  have hlen : frame.length = 13 + payload.length := length_of_encodeSegment henc
  have hle : 13 + payload.length ≤ blen := by
    rw [← hlen, ← Memory.length_readN g.inMem 0 blen, hb, List.length_append]
    exact Nat.le_add_right _ _
  have hframe : g.inMem.readN 0 (13 + payload.length) = frame := by
    have htake := g.inMem.take_drop_readN (a := 0) (k := 0) (n := 13 + payload.length) (len := blen) (by omega)
    rw [List.drop_zero, hb, List.take_left' hlen] at htake
    exact htake.symm
  refine ⟨?_, hle, ?_, fun inMem' hin => ?_⟩
  · rw [← toNat_totalLenAt, ← declaredLen_readN g.inMem (len := blen) (by omega), hb, declaredLen_frame_append henc, hlen]
  · exact exec_decode_frame (tail := []) hat (hle.trans hl) henc (by rw [hframe, List.append_nil]) k
  · have hb' : inMem'.readN 0 blen = frame ++ inMem'.readN (0 + (13 + payload.length)) (blen - (13 + payload.length)) := by
      rw [← hframe, ← hin, ← Memory.readN_add, Nat.add_sub_cancel' hle]
    exact exec_decode_frame (hat.setEngine (g' := { g with inMem := inMem' }) hp) hl henc hb' k

/-! ### Errors (R92, R106, R107) -/

/-- A reply that is an error leaves OUT as it was (R106). -/
theorem Replies.replied_of_error {i : Instr} {c : Config} {req : Request} {inp : Memory} {a : Reply}
    (h : Replies i c req inp a) (hr : a.rsp.ok = false) (s : State) (t : Turn) :
    s.replied t a = s.answered t.engine t.eng t.rest t.eng.outMem a.rsp := by
  have hnil : a.bytes = [] := List.length_eq_zero_iff.mp (h.covered.symm.trans (Response.covered_of_not_ok hr))
  rw [State.replied, hnil, Memory.writeN]

/-- Settles O44: the error's reply writes nothing, and the take puts the engine back as it was, but IDLE. -/
theorem errorsLeaveNoTrace : Obligations.ErrorsLeaveNoTrace := by
  intro i s s' e g g' req rest r hat h hg' hp hr
  obtain ⟨a, ha⟩ := exec_replies hat h
  obtain rfl := Host.Outcome.next.inj (h.symm.trans (ha.exec_eq hat rfl rfl))
  obtain rfl := Option.some.inj (hg'.symm.trans (State.answered_engine hat _ _ _))
  obtain rfl := Phase.done.inj hp
  rw [ha.replied_of_error hr, step_take rfl]
  change hostTake (s.answered e g rest g.outMem a.rsp) e = _
  rw [hostTake_done (State.answered_engine hat rest g.outMem a.rsp) rfl, Response.covered_of_not_ok hr, Memory.readN]
  simp only [State.setEngine, State.deliver, State.answered, List.set_set]

end Sys2Proof.Machine
end

section
/-! ## 60_exceptions: the length error comes before the tag's (R110), the reserved word's stop (R117), the idle block
(R120, R135) -/

namespace Sys2Proof.Machine

/-! ### Tag words behind an invalid length (R81, R83, R110; log 7) -/

/-- Bytes written from the type byte on leave the length field as it was. -/
theorem totalLenAt_writeN_four (m : Memory) (bytes : List Byte) : totalLenAt (m.writeN 4 bytes) = totalLenAt m := by
  rw [totalLenAt, Memory.readN_writeN_outside m bytes 4 0 4 (.inl (le_refl 4)), totalLenAt]

/-- Each tag word is the DECODE in flight with some byte at offset 4. -/
theorem exec_of_mem_tagWords {i : Instr} {tag : Byte}
    (hi : i ∈ [Instr.tagData, Instr.tagAck, Instr.tagSyn, Instr.tagReserved tag]) :
    ∃ t : Byte, ∀ s, exec i s = atTurn s (runWire 4 [t] s) := by
  simp only [List.mem_cons, List.not_mem_nil, or_false] at hi
  rcases hi with rfl | rfl | rfl | rfl <;> exact ⟨_, fun _ => rfl⟩

/-- Settles O25: the word's byte stands behind the length field, whose errors R80 raises before it reads the tag. -/
theorem tagWordsReportTheLengthFirst : Obligations.TagWordsReportTheLengthFirst := by
  intro s e g req rest tag i hat hop hl hi
  obtain ⟨t, hx⟩ := exec_of_mem_tagWords hi
  have hlen : totalLenAt (g.inMem.writeN 4 [t]) = totalLenAt g.inMem := totalLenAt_writeN_four g.inMem [t]
  rw [exec_wire_of_decode hx hat hop]
  refine ⟨runDecode_tooShort hl, fun h4 h => ⟨totalLenAt g.inMem, toNat_totalLenAt g.inMem, ?_⟩⟩
  rw [← toNat_totalLenAt, ← hlen] at h
  rw [runDecode_invalidTotalLen hl h4 h, hlen]

/-! ### The reserved ENCODE word (R117 (a)) -/

/-- Settles O41: the word's meaning is the stop itself, and looks at neither the state nor the fields. -/
theorem reservedKindWordIsRefused : Obligations.ReservedKindWordIsRefused :=
  fun _ _ _ => rfl

/-! ### The idle block (R120, R135; log 4) -/

/-- The search for a BUSY engine finds none exactly when there is none. -/
theorem firstBusy_eq_none {es : List Engine} {e : Nat} :
    firstBusy e es = none ↔ ∀ g ∈ es, ∀ q, g.phase ≠ .busy q := by
  induction es generalizing e with
  | nil => simp [firstBusy]
  | cons g es ih => cases hp : g.phase <;> simp [firstBusy, hp, ih]

/-- With no move to come and no BUSY engine a step is a stutter. -/
theorem step_stutter {s : State} (ha : s.agenda = []) (hidle : ∀ g ∈ s.engines, ∀ q, g.phase ≠ .busy q) :
    step s = .next s := by
  simp only [step, ha, firstBusy_eq_none.mpr hidle]

/-- A state that a step leaves as it is stays so however many steps are taken. -/
theorem run_of_step_self {s : State} (h : step s = .next s) (k : Nat) : Sys2Proof.core.run k s = .next s := by
  induction k with
  | zero => rfl
  | succ k ih => rw [run_succ_of_step h, ih]

/-- Settles O51: the block stutters at every step, and a finished run is one such state, an IDLE engine not being BUSY. -/
theorem idleBlockDoesNothing : Obligations.IdleBlockDoesNothing := by
  refine fun s => ⟨fun ha hidle => run_of_step_self (step_stutter ha hidle), ?_⟩
  rintro ⟨ha, hall⟩
  refine run_of_step_self (step_stutter ha fun g hg q => ?_)
  rw [hall g hg]
  exact nofun

end Sys2Proof.Machine
end

section
/-! ## 70_reset_and_hazards: the BUSY engines execute (R134), and what a reset leaves (R122 to R124) -/

namespace Sys2Proof.Machine

/-! ### The number of BUSY engines -/

/-- The test that `State.busyCount` counts by, as a predicate with a name. -/
def Engine.isBusy (g : Engine) : Bool :=
  match g.phase with
  | .busy _ => true
  | .idle => false
  | .done _ => false

theorem Engine.isBusy_iff {g : Engine} : g.isBusy = true ↔ ∃ q, g.phase = .busy q := by
  cases hp : g.phase <;> simp [Engine.isBusy, hp]

theorem State.busyCount_eq_countP (s : State) : s.busyCount = s.engines.countP Engine.isBusy :=
  List.countP_eq_length_filter.symm

theorem State.busyCount_eq_zero {s : State} : s.busyCount = 0 ↔ ∀ g ∈ s.engines, ∀ q, g.phase ≠ .busy q := by
  simp only [State.busyCount_eq_countP, List.countP_eq_zero, Engine.isBusy_iff, not_exists]

/-- An answer takes one engine off the BUSY ones. -/
theorem State.busyCount_answered {s : State} {e : Nat} {g : Engine} {q : Request} (he : s.engines[e]? = some g)
    (hp : g.phase = .busy q) (ms : List Move) (out : Memory) (r : Response) :
    (s.answered e g ms out r).busyCount = s.busyCount - 1 := by
  obtain ⟨hlt, rfl⟩ := List.getElem?_eq_some_iff.mp he
  rw [State.busyCount_eq_countP, State.busyCount_eq_countP, State.answered_engines, List.countP_set hlt,
    if_pos (Engine.isBusy_iff.mpr ⟨q, hp⟩)]
  rfl

/-! ### Every BUSY engine executes (R134; log 4) -/

/-- What the search finds is a BUSY engine. -/
theorem busy_of_firstBusy {es : List Engine} {k e : Nat} (h : firstBusy k es = some e) :
    ∃ i g q, e = k + i ∧ es[i]? = some g ∧ g.phase = .busy q := by
  induction es generalizing k with
  | nil => cases h
  | cons g es ih =>
    cases hp : g.phase with
    | busy q =>
      simp only [firstBusy, hp, Option.some.injEq] at h
      exact ⟨0, g, q, h.symm, rfl, hp⟩
    | idle | done =>
      simp only [firstBusy, hp] at h
      obtain ⟨i, g', q, rfl, hi, hq⟩ := ih h
      exact ⟨i + 1, g', q, by omega, hi, hq⟩

/-- With no move to come, the step is the execute step of the BUSY engine that the search finds. -/
theorem step_firstBusy {s : State} {e : Nat} (ha : s.agenda = []) (hf : firstBusy 0 s.engines = some e) :
    step s = step (s.setAgenda [.execute e]) := by
  rw [step_execute (State.setAgenda_agenda s [.execute e])]
  simp only [step, ha, hf]

/-- With no move to come, some BUSY engine answers if there is one: the invariant admits its request. -/
theorem exists_step_answered {s : State} (hinv : s.Inv) (ha : s.agenda = []) (hb : s.busyCount ≠ 0) :
    ∃ e g q out r, s.engines[e]? = some g ∧ g.phase = .busy q ∧ step s = .next (s.answered e g [] out r) := by
  obtain ⟨e, hf⟩ := Option.ne_none_iff_exists'.mp fun h => hb (State.busyCount_eq_zero.mpr (firstBusy_eq_none.mp h))
  obtain ⟨i, g, q, rfl, he, hp⟩ := busy_of_firstBusy hf
  rw [Nat.zero_add] at hf
  have hadm : q.refusal? s.cfg = none := by
    obtain ⟨-, -, -, -, hw⟩ := hinv.engine_wf he
    rwa [hp] at hw
  obtain ⟨out, r, hx⟩ := admittedRequestsEndInAResponse (s.setAgenda [.execute i]) i g q [] ⟨rfl, he, hp⟩ hadm
  exact ⟨i, g, q, out, r, he, hp, (step_firstBusy ha hf).trans hx⟩

/-- Settles O52, by induction on the number of BUSY engines: each step answers one of them. -/
theorem everyBusyEngineExecutes : Obligations.EveryBusyEngineExecutes := by
  intro s hinv ha
  induction hn : s.busyCount generalizing s with
  | zero => exact ⟨s, rfl, ha, rfl, State.busyCount_eq_zero.mp hn⟩
  | succ n ih =>
    obtain ⟨e, g, q, out, r, he, hp, hx⟩ := exists_step_answered hinv ha (by omega)
    obtain ⟨s', hrun, ha', hlen, hidle⟩ := ih _ (stepKeepsTheInvariant _ _ hinv hx) rfl
      (by rw [State.busyCount_answered he hp, hn, Nat.add_sub_cancel])
    exact ⟨s', (run_succ_of_step hx n).trans hrun, ha', hlen.trans List.length_set, hidle⟩

/-! ### Reset (R122 to R124; log 3, log 16) -/

/-- Settles O53: the parameters and the number of engines by the invariant, and each engine is one after reset. -/
theorem everyEngineIsIdleAfterReset : Obligations.EveryEngineIsIdleAfterReset := by
  obtain ⟨⟨⟨hone, -⟩, hlen, -, -⟩, -⟩ := theInvariantHoldsAtReset
  refine ⟨hlen, hone, fun g hg => ?_, State.reset_delivered⟩
  rw [List.eq_of_mem_replicate hg]
  rfl

theorem step_reset {s : State} {contents : List Contents} {rest : List Move} (h : s.agenda = .reset contents :: rest) :
    step s = .next { s.setAgenda rest with engines := resetEngines s.cfg s.engines contents } := by
  simp only [step, h]
  rfl

/-- Settles O54: a reset replaces the engines only, each by an IDLE one. -/
theorem resetMakesEveryEngineIdle : Obligations.ResetMakesEveryEngineIdle := by
  intro s contents rest ha
  refine ⟨_, step_reset ha, resetEngines_length _ _ _, fun g hg => ?_, rfl, rfl, rfl⟩
  obtain ⟨e, he⟩ := List.mem_iff_getElem?.mp hg
  exact phase_of_resetEngines he

/-- Settles O55: an engine after a reset has the spaces made of the cells carried for it, or those it had. -/
theorem resetCanLeaveAnyContents : Obligations.ResetCanLeaveAnyContents := by
  intro s rest want hfit
  refine ⟨_, step_reset rfl, resetEngines_length _ _ _, fun e w he hw => ?_, fun e g hle he => ?_⟩
  · obtain ⟨hin, hout⟩ := hfit w (List.mem_of_getElem? hw)
    refine ⟨Engine.resetTo s.cfg (contentsOf w), ?_, rfl, Memory.readN_ofCells _ 0 _ (by omega),
      Memory.readN_ofCells _ 0 _ (by omega)⟩
    simp [resetEngines_getElem?, List.getElem?_eq_getElem he, hw]
  · simp [resetEngines_getElem?, he, List.getElem?_eq_none hle]

end Sys2Proof.Machine
end
